-- ==== Sys2Proof/Word.lean ====
section
/-! DEFINITION. The data types of the cell: binary32 and binary64 patterns, and the two floating-point formats
as plain data (00_scope.md R8, R9; 40_datapath.md R56). -/

namespace Sys2Proof

/-- A binary32 pattern: a sample, a coefficient, a state register or an output (R9, R56). -/
abbrev Word := BitVec 32

/-- A binary64 pattern: a controller parameter (46_cascade_controller.md, introduction; decision D21). -/
abbrev Binary64 := BitVec 64

/-- A command on the command port, `cmd = {coef, din, op}` (R45). -/
abbrev Cmd := BitVec 194

/-- `+0` (R9). -/
def posZero : Word := 0x00000000#32

/-- `1.0`, the INIT value of `a0` (R14, R124). -/
def one : Word := 0x3F800000#32

/-- An IEEE 754 binary interchange format: how many exponent and fraction bits it has. -/
structure Format where
  expBits  : Nat
  fracBits : Nat
  deriving DecidableEq, Repr

/-- What a pattern denotes. A finite value is `(-1)^neg * units` quanta, the quantum being the format's smallest
positive subnormal (2^-149 in binary32, 2^-1074 in binary64), so exact sums and products are integer arithmetic. -/
inductive Datum where
  | nan
  | inf (neg : Bool)
  | fin (neg : Bool) (units : Nat)
  deriving DecidableEq, Repr

/-- Five coefficient patterns in the order of the `coef` bus (R48). -/
structure Coeffs where
  a0 : Word
  a1 : Word
  a2 : Word
  b1 : Word
  b2 : Word
  deriving DecidableEq, Repr, Inhabited

end Sys2Proof
end

