-- ==== Sys2Proof/Syntax.lean ====
section
/-! DEFINITION. What the environment can present: the cell's four commands, the port tuple, and the operations of the
band and of the cascade (30_encoding.md, 46_cascade_controller.md); and the expressions of the coefficient engine
(45_coefficient_engine.md). -/

namespace Sys2Proof

/-- The cell's commands, one constructor for each row of the opcode table (R46). -/
inductive Instr where
  /-- NOP, the idle step (R62). -/
  | nop
  /-- PROCESS, with the sample on `din` (R47, R63). -/
  | process (sample : Word)
  /-- LOAD, with the five lanes of `coef` (R48, R66). -/
  | load (a0 a1 a2 b1 b2 : Word)
  /-- RESET (R68). -/
  | reset
  deriving DecidableEq, Repr

/-- The tuple the environment presents at the cell's input ports in one step (R44). -/
structure Port where
  init : Bool
  op   : BitVec 2
  din  : BitVec 32
  coef : BitVec 160
  deriving DecidableEq, Repr

/-- The closed enumeration of filter types (R74). -/
inductive FilterType where
  | lowpass
  | highpass
  | bandpass
  | notch
  | parametricEQ
  | allPass
  deriving DecidableEq, Repr

/-- The operations of one band, the source's BandFilter (R91 to R101). A filter type arrives as its 3-bit code (R74).
Counts are natural numbers. DESIGN CHOICE, safe: log entry 13. -/
inductive BandOp where
  | init (sampleRateHz : Binary64) (channelCount : Nat) (type : BitVec 3)
      (frequencyHz bandwidthOctaves gainDb : Binary64)
  | processFrame (inSamples : List Word)
  | reset
  | setParams (type : BitVec 3) (frequencyHz bandwidthOctaves gainDb : Binary64)
  | setType (type : BitVec 3)
  | setFrequency (frequencyHz : Binary64)
  | setBandwidth (bandwidthOctaves : Binary64)
  | setGainDb (gainDb : Binary64)
  | setEnabled (enabled : Bool)
  deriving DecidableEq, Repr

/-- The operations of the cascade, the source's Equalizer (R104 to R106). A band index is an integer: a negative one is
out of range (R105). -/
inductive EqualizerOp where
  | init (sampleRateHz : Binary64) (bandCount channelCount : Nat)
  | processFrame (inSamples : List Word)
  | setBandEnabled (bandIndex : Int) (enabled : Bool)
  | setBandParams (bandIndex : Int) (type : BitVec 3) (frequencyHz bandwidthOctaves gainDb : Binary64)
  | setBandFrequency (bandIndex : Int) (frequencyHz : Binary64)
  | setBandwidth (bandIndex : Int) (bandwidthOctaves : Binary64)
  | setBandGainDb (bandIndex : Int) (gainDb : Binary64)
  deriving DecidableEq, Repr

/-- One event from outside: a port tuple for the cell, or one whole operation of either controller agent (R110) on the
band or on the cascade. -/
inductive Input where
  | port (p : Port)
  | band (op : BandOp)
  | equalizer (op : EqualizerOp)
  deriving DecidableEq, Repr

/-- An expression of the coefficient engine, as the source writes it (R76 to R85). What it evaluates to is the
parameter `COEF_ARITH` (R75). -/
inductive CoefExpr where
  /-- A small whole number written in a formula: 0, 1, 2, 40. -/
  | nat (n : Nat)
  /-- One of the band's stored parameters. -/
  | input (v : Binary64)
  | pi
  | add (x y : CoefExpr)
  | sub (x y : CoefExpr)
  | mul (x y : CoefExpr)
  | div (x y : CoefExpr)
  | neg (x : CoefExpr)
  | sin (x : CoefExpr)
  | cos (x : CoefExpr)
  | ln (x : CoefExpr)
  /-- `10^x` -/
  | pow10 (x : CoefExpr)
  deriving DecidableEq, Repr

/-- The six values of a filter type before normalisation (R78 to R83). -/
structure Unnormalised where
  a0 : CoefExpr
  a1 : CoefExpr
  a2 : CoefExpr
  b0 : CoefExpr
  b1 : CoefExpr
  b2 : CoefExpr
  deriving DecidableEq, Repr

/-- The five quotients the engine delivers, as expressions (R85). -/
structure Normalised where
  a0 : CoefExpr
  a1 : CoefExpr
  a2 : CoefExpr
  b1 : CoefExpr
  b2 : CoefExpr
  deriving DecidableEq, Repr

end Sys2Proof
end

