-- ==== Sys2Proof/Config.lean ====
section
/-! DEFINITION. What is fixed for the machine, and the values the spec leaves open (00_scope.md R7). The opaque
constants have no body: no proof can learn a value of theirs. -/

namespace Sys2Proof

/-- `MAX_CHANNELS` (R7, R108; decision D26). -/
def Config.maxChannels : Nat := 8

/-- `NaNPayload` (R7, R58): the sign bit and the 22 payload bits of the quiet NaN that draw number `n` returns. DESIGN CHOICE, safe but for a claim that compares two runs: log entry 1. -/
opaque Config.nanDraw : Nat → BitVec 23

/-- Whether draw number `n` says that a cell of a band sees a NOP step after the commands a controller operation gave it
(46_cascade_controller.md, introduction). DESIGN CHOICE, safe: log entry 2. -/
opaque Config.idleStep : Nat → Bool

/-- `COEF_ARITH` (R7, R75): the five binary32 patterns that the quotients of a filter type evaluate to, rounding included. The
quotients hold the band's parameters, so it is a function of the engine's inputs (R73) in which nothing relates the five
patterns to one another, or those of two types. DESIGN CHOICE, safe: log entry 3. -/
opaque Config.coefEval : FilterType → Normalised → Coeffs

/-- Whether `b0` comes out finite and not zero under that `COEF_ARITH` (R86). DESIGN CHOICE, safe: log entry 3. -/
opaque Config.b0FiniteNonzero : Unnormalised → Bool

/-- A step-by-step arithmetic an engine could use: one way of fixing `COEF_ARITH` (R75). The machine does not use one:
statements about `COEF_ARITH` speak of every such arithmetic, or of the default. -/
structure CoefArith (α : Type) where
  nat        : Nat → α
  input      : Binary64 → α
  pi         : α
  add        : α → α → α
  sub        : α → α → α
  mul        : α → α → α
  div        : α → α → α
  neg        : α → α
  sin        : α → α
  cos        : α → α
  ln         : α → α
  pow10      : α → α
  toBinary32 : α → Word

/-- What the default `COEF_ARITH` takes from its host (R75): the function library, and which quiet NaNs its own
operations return. -/
structure HostLibrary where
  sin   : Binary64 → Binary64
  cos   : Binary64 → Binary64
  ln    : Binary64 → Binary64
  pow10 : Binary64 → Binary64
  nan64 : BitVec 52
  nan32 : BitVec 23

end Sys2Proof
end

