-- ==== Sys2Proof/WellFormed.lean ====
section
/-! DEFINITION. What is well formed: every command is (30_encoding.md R50), and a controller operation is when its filter
type, channel count and band count are ones the spec gives a meaning (R74, R108). -/

namespace Sys2Proof

/-- Every operand pattern of every command is legal (R50). -/
def Instr.wellFormed : Instr → Bool
  | .nop => true
  | .process _ => true
  | .load _ _ _ _ _ => true
  | .reset => true

/-- Codes 6 and 7 name no filter type (R74). -/
def typeCodeWellFormed (code : BitVec 3) : Bool := code.toNat < 6

/-- `1 .. MAX_CHANNELS` (R7, R108). -/
def channelCountWellFormed (n : Nat) : Bool := 1 ≤ n && n ≤ Config.maxChannels

/-- At least one band (R7, R108). -/
def bandCountWellFormed (n : Nat) : Bool := 1 ≤ n

def BandOp.wellFormed : BandOp → Bool
  | .init _ channelCount type _ _ _ => typeCodeWellFormed type && channelCountWellFormed channelCount
  | .processFrame _ => true
  | .reset => true
  | .setParams type _ _ _ => typeCodeWellFormed type
  | .setType type => typeCodeWellFormed type
  | .setFrequency _ => true
  | .setBandwidth _ => true
  | .setGainDb _ => true
  | .setEnabled _ => true

def EqualizerOp.wellFormed : EqualizerOp → Bool
  | .init _ bandCount channelCount => channelCountWellFormed channelCount && bandCountWellFormed bandCount
  | .processFrame _ => true
  | .setBandEnabled _ _ => true
  | .setBandParams _ type _ _ _ => typeCodeWellFormed type
  | .setBandFrequency _ _ => true
  | .setBandwidth _ _ => true
  | .setBandGainDb _ _ => true

def Input.wellFormed : Input → Bool
  | .port _ => true
  | .band op => op.wellFormed
  | .equalizer op => op.wellFormed

end Sys2Proof
end

