-- ==== Sys2Proof/Decode.lean ====
section
/-! DEFINITION. The command format and its decoder and encoder (30_encoding.md R45 to R50), the port tuple's `cmd`, and
the numbering of the opcode table. -/

namespace Sys2Proof

/-- The field `op = cmd[1:0]` (R45). -/
def opField (w : Cmd) : BitVec 2 := w.extractLsb' 0 2

/-- The sample operand `din = cmd[33:2]`, taken as it is (R45, R47). -/
def dinField (w : Cmd) : Word := w.extractLsb' 2 32

/-- The coefficient bus `coef = cmd[193:34]` (R45). -/
def coefField (w : Cmd) : BitVec 160 := w.extractLsb' 34 160

/-- The five lanes of the `coef` bus (R34, R48). -/
def coefLanes (coef : BitVec 160) : Coeffs where
  a0 := coef.extractLsb' 0 32
  a1 := coef.extractLsb' 32 32
  a2 := coef.extractLsb' 64 32
  b1 := coef.extractLsb' 96 32
  b2 := coef.extractLsb' 128 32

/-- The bus that carries five coefficients: the inverse of `coefLanes` (R48). -/
def coefBus (k : Coeffs) : BitVec 160 := k.b2 ++ k.b1 ++ k.a2 ++ k.a1 ++ k.a0

/-- `cmd = {coef[159:0], din[31:0], op[1:0]}` (R45). -/
def assembleCmd (op : BitVec 2) (din : Word) (coef : BitVec 160) : Cmd := coef ++ din ++ op

/-- The command a port tuple carries; `init` is not part of it (R45). -/
def Port.cmd (p : Port) : Cmd := assembleCmd p.op p.din p.coef

/-- The port tuple of a step with `init = 0` that presents the command `w` (R44, R45). -/
def Port.ofCmd (w : Cmd) : Port where
  init := false
  op := opField w
  din := dinField w
  coef := coefField w

/-- The decoder (R46 to R49). All four codes are defined, so there is nothing to refuse (R50); a bus a command does not
use is ignored (R49). -/
def decode (w : Cmd) : Instr :=
  match (opField w).toNat with
  | 0 => .nop
  | 1 => .process (dinField w)
  | 2 =>
    let k := coefLanes (coefField w)
    .load k.a0 k.a1 k.a2 k.b1 k.b2
  | _ => .reset

/-- Why a number is no command. -/
inductive DecodeError where
  /-- It has a bit above bit 193: the length of a command is always 194 bits (R45, R52). -/
  | longerThanCmd
  deriving DecidableEq, Repr

/-- The decoder on a number of any length. DESIGN CHOICE, safe: log entry 14. -/
def decodeNat (n : Nat) : Except DecodeError Instr :=
  if n < 2 ^ 194 then .ok (decode (BitVec.ofNat 194 n)) else .error .longerThanCmd

/-- The command code of an instruction (R46). -/
def opcode : Instr → BitVec 2
  | .nop => 0b00#2
  | .process _ => 0b01#2
  | .load _ _ _ _ _ => 0b10#2
  | .reset => 0b11#2

/-- The encoder: the command that stands for an instruction, an ignored bus written as 0 (R45, R46, R48, R55). -/
def encode : Instr → Cmd
  | .nop => assembleCmd (opcode .nop) 0#32 0#160
  | .process sample => assembleCmd (opcode (.process sample)) sample 0#160
  | .load a0 a1 a2 b1 b2 => assembleCmd (opcode (.load a0 a1 a2 b1 b2)) 0#32 (coefBus ⟨a0, a1, a2, b1, b2⟩)
  | .reset => assembleCmd (opcode .reset) 0#32 0#160

/-- The instruction the decoder reads from a word of the opcode table, numbered as the table numbers it: its bit 0 is
`cmd[0]`. -/
def decodeTableWord (nbits w : Nat) : Option Instr :=
  match decodeNat (w % 2 ^ nbits) with
  | .ok i => some i
  | .error _ => none

/-- The 3-bit codes of the filter types (R74). -/
def FilterType.ofCode (code : BitVec 3) : Option FilterType :=
  match code.toNat with
  | 0 => some .lowpass
  | 1 => some .highpass
  | 2 => some .bandpass
  | 3 => some .notch
  | 4 => some .parametricEQ
  | 5 => some .allPass
  | _ => none

def FilterType.code : FilterType → BitVec 3
  | .lowpass => 0#3
  | .highpass => 1#3
  | .bandpass => 2#3
  | .notch => 3#3
  | .parametricEQ => 4#3
  | .allPass => 5#3

end Sys2Proof
end

