-- ==== Sys2Proof/Machine/State.lean ====
section
/-! DEFINITION. The state of the machine, the reasons a step can stop, and the state after reset (10_state.md,
46_cascade_controller.md R89 and R103, 70_reset_and_hazards.md R124). -/

namespace Sys2Proof.Machine

/-- One cell: five coefficient registers, four state registers and the output-valid flag, and nothing else (R13). -/
structure Cell where
  a0 : Word
  a1 : Word
  a2 : Word
  b1 : Word
  b2 : Word
  x1 : Word
  x2 : Word
  y1 : Word
  y2 : Word
  valid : Bool
  deriving DecidableEq, Repr

/-- The state INIT gives a cell (R14, R19, R24, R124). -/
def Cell.fresh : Cell where
  a0 := one
  a1 := posZero
  a2 := posZero
  b1 := posZero
  b2 := posZero
  x1 := posZero
  x2 := posZero
  y1 := posZero
  y2 := posZero
  valid := false

/-- One band, the source's BandFilter: its parameters and one cell for each channel (R89). -/
structure Band where
  initialised      : Bool
  filterType       : FilterType
  frequencyHz      : Binary64
  bandwidthOctaves : Binary64
  gainDb           : Binary64
  enabled          : Bool
  sampleRateHz     : Binary64
  channelCount     : Nat
  cells            : List Cell
  deriving DecidableEq, Repr

/-- A band before its first `init` (R101). The spec gives its other fields no value. DESIGN CHOICE, unsafe: log entry 4. -/
def Band.uninitialised : Band where
  initialised      := false
  filterType       := .lowpass
  frequencyHz      := 0#64
  bandwidthOctaves := 0#64
  gainDb           := 0#64
  enabled          := false
  sampleRateHz     := 0#64
  channelCount     := 0
  cells            := []

/-- The cascade, the source's Equalizer: an ordered sequence of bands (R103). -/
structure Equalizer where
  initialised  : Bool
  bandCount    : Nat
  channelCount : Nat
  sampleRateHz : Binary64
  bands        : List Band
  deriving DecidableEq, Repr

/-- The cascade before its first `init`. The spec gives its other fields no value. DESIGN CHOICE, unsafe: log entry 4. -/
def Equalizer.uninitialised : Equalizer where
  initialised  := false
  bandCount    := 0
  channelCount := 0
  sampleRateHz := 0#64
  bands        := []

/-- The whole machine: one system at each of the three levels of R2, and what the environment will present. -/
structure State where
  /-- The hardware of the spec: the cell behind the ports of R44 (R1, R13). -/
  cell        : Cell
  /-- The cell has had its first INIT (R31, R128). The model's own field. DESIGN CHOICE, safe: log entry 5. -/
  initialised : Bool
  /-- A band, driven by its own operations (R89 to R102). -/
  band        : Band
  /-- A cascade, driven by its own operations (R103 to R107). -/
  equalizer   : Equalizer
  /-- What the last `processFrame`, of the band or of the cascade, returned (R92, R106); before any has returned, whatever the
state holds, at launch the empty list. The spec gives neither the field nor that value. DESIGN CHOICE, unsafe for a claim that
rests on the empty list: log entry 6. -/
  outSamples  : List Word
  /-- What the environment presents from now on, in order (R26, R38, R110). No part of the cell. DESIGN CHOICE, safe: log entry 6. -/
  inputs      : List Input
  /-- How many free values have been drawn. The model's own field. DESIGN CHOICE, safe but for a claim that compares two runs: log entry 1. -/
  draws       : Nat
  deriving DecidableEq, Repr

/-- The launch state (R31): the cell as INIT leaves it, and a controller nothing has initialised (log entry 4). That
`outSamples` is empty before any `processFrame` has returned is a DESIGN CHOICE, unsafe for a claim that rests on it: log
entry 6; the other fields of the model's own are log entries 1, 5 and 6. -/
def State.reset : State where
  cell        := Cell.fresh
  initialised := true
  band        := Band.uninitialised
  equalizer   := Equalizer.uninitialised
  outSamples  := []
  inputs      := []
  draws       := 0

/-- The machine has no fault: every command completes with a defined result for every operand (R111, R112;
93_implementation_defined.md section 1: nothing in the cell is fault or stuck). -/
inductive Fault where
  deriving DecidableEq, Repr

/-- Why the machine gives no next state. -/
inductive Refusal where
  /-- Raised by `exec` for an instruction without a meaning; no arm raises it. Safe. -/
  | notModelled (mnemonic : String)
  /-- Raised by every command on a cell that has had no INIT (R31, R112). Safe. -/
  | commandBeforeInit
  /-- Raised by an operation with filter-type code 6 or 7 (R74, R112). Safe. -/
  | unknownFilterType
  /-- Raised by an `init` with `channelCount` 0 or above `MAX_CHANNELS` (R108). Safe. -/
  | channelCountOutOfRange
  /-- Raised by a cascade `init` with no band (R108). Safe. -/
  | bandCountOutOfRange
  /-- Raised by a `processFrame` of a band or of a cascade that has had no `init` (R108, decision D26).
  For a band DESIGN CHOICE, safe: log entry 9. -/
  | frameBeforeInit
  /-- Raised by a `processFrame` whose frame does not hold one sample for each channel (R92, R106).
  DESIGN CHOICE, safe: log entry 9. -/
  | frameWidthMismatch
  deriving DecidableEq, Repr

end Sys2Proof.Machine
end

