-- ==== Sys2Proof/Machine/Float.lean ====
section
/-! DEFINITION. IEEE 754 arithmetic on patterns, in the two formats of the spec: classification (00_scope.md R9),
multiplication, addition and subtraction rounded to nearest, ties to even (40_datapath.md R57, R58), and what the controller
and the default engine need besides: division, comparison and the narrowing to binary32 (R75, R94). -/

namespace Sys2Proof.Machine

/-! ## Formats -/

/-- binary32 (R9, R56). -/
def binary32 : Format := ⟨8, 23⟩

/-- binary64 (decision D21). PRESUMED, unsafe: the layout is IEEE 754's, log entry 11. -/
def binary64 : Format := ⟨11, 52⟩

/-- The pattern with only the sign bit set. -/
def signWeight (F : Format) : Nat := 2 ^ (F.expBits + F.fracBits)

/-- The magnitude pattern of infinity: every exponent bit set, no fraction bit (R9). -/
def infMag (F : Format) : Nat := (2 ^ F.expBits - 1) * 2 ^ F.fracBits

/-- One unit of value is `quantaPerOne` quanta: 2^149 in binary32, 2^1074 in binary64. -/
def quantaPerOne (F : Format) : Nat := 2 ^ (2 ^ (F.expBits - 1) - 2 + F.fracBits)

/-- The value of a finite magnitude pattern, in quanta: a subnormal's fraction, or a normal's significand moved up by its
exponent (R9). It goes on past the largest finite pattern, as if the exponent had no upper bound. -/
def magUnits (F : Format) (mag : Nat) : Nat :=
  if mag < 2 ^ F.fracBits then mag
  else (2 ^ F.fracBits + mag % 2 ^ F.fracBits) * 2 ^ (mag / 2 ^ F.fracBits - 1)

/-- What a pattern denotes (R9). -/
def datum (F : Format) (bits : Nat) : Datum :=
  let neg := bits / signWeight F % 2 == 1
  let mag := bits % signWeight F
  if mag < infMag F then .fin neg (magUnits F mag)
  else if mag = infMag F then .inf neg
  else .nan

/-- The pattern with a sign and a magnitude pattern. -/
def withSign (F : Format) (neg : Bool) (mag : Nat) : Nat := (if neg then signWeight F else 0) + mag

/-! ## Rounding -/

/-- The whole number nearest to `num / den`, ties to the even one. -/
def roundHalfEven (num den : Nat) : Nat :=
  let k := num / den
  let r := num % den
  if den < 2 * r ∨ (2 * r = den ∧ k % 2 = 1) then k + 1 else k

/-- How far the significand of a value of `q` quanta (its fraction part dropped) is moved up in the format: 0 in the
subnormal grid and the lowest normal binade. -/
def binade (F : Format) (q : Nat) : Nat := Nat.log2 q - F.fracBits

/-- The magnitude pattern nearest to `num / den` quanta, ties to the even significand, as if the exponent had no upper
bound (R57). A significand that rounds up to the next power of two carries into the exponent field by itself. -/
def roundMag (F : Format) (num den : Nat) : Nat :=
  let s := binade F (num / den)
  s * 2 ^ F.fracBits + roundHalfEven num (den * 2 ^ s)

/-- Rounding with overflow: a rounded magnitude past the largest finite one is an infinity (R57). -/
def roundFinite (F : Format) (num den : Nat) : Nat := min (roundMag F num den) (infMag F)

/-! ## The operations on what patterns denote

`nan` is the pattern a NaN result takes (R58). -/

/-- A finite value as a signed number of quanta. -/
def signedUnits (neg : Bool) (units : Nat) : Int := if neg then -(units : Int) else (units : Int)

def mulDatum (F : Format) (nan : Nat) : Datum → Datum → Nat
  | .nan, _ => nan
  | _, .nan => nan
  | .inf s, .inf t => withSign F (s != t) (infMag F)
  | .inf s, .fin t n => if n = 0 then nan else withSign F (s != t) (infMag F)
  | .fin s m, .inf t => if m = 0 then nan else withSign F (s != t) (infMag F)
  | .fin s m, .fin t n => withSign F (s != t) (roundFinite F (m * n) (quantaPerOne F))

def addDatum (F : Format) (nan : Nat) : Datum → Datum → Nat
  | .nan, _ => nan
  | _, .nan => nan
  | .inf s, .inf t => if s = t then withSign F s (infMag F) else nan
  | .inf s, .fin _ _ => withSign F s (infMag F)
  | .fin _ _, .inf t => withSign F t (infMag F)
  | .fin s m, .fin t n =>
    let z := signedUnits s m + signedUnits t n
    if z = 0 then withSign F (s && t) 0 else withSign F (decide (z < 0)) (roundFinite F z.natAbs 1)

def divDatum (F : Format) (nan : Nat) : Datum → Datum → Nat
  | .nan, _ => nan
  | _, .nan => nan
  | .inf _, .inf _ => nan
  | .inf s, .fin t _ => withSign F (s != t) (infMag F)
  | .fin s _, .inf t => withSign F (s != t) 0
  | .fin s m, .fin t n =>
    if n = 0 then (if m = 0 then nan else withSign F (s != t) (infMag F))
    else withSign F (s != t) (roundFinite F (m * quantaPerOne F) n)

/-- IEEE equality: a NaN equals nothing, and `+0 == -0`. -/
def eqDatum : Datum → Datum → Bool
  | .nan, _ => false
  | _, .nan => false
  | .inf s, .inf t => s == t
  | .inf _, .fin _ _ => false
  | .fin _ _, .inf _ => false
  | .fin s m, .fin t n => signedUnits s m == signedUnits t n

/-- IEEE less-or-equal: false whenever an operand is a NaN. -/
def leDatum : Datum → Datum → Bool
  | .nan, _ => false
  | _, .nan => false
  | .inf s, .inf t => s || !t
  | .inf s, .fin _ _ => s
  | .fin _ _, .inf t => !t
  | .fin s m, .fin t n => decide (signedUnits s m ≤ signedUnits t n)

/-! ## binary32: the cell's arithmetic -/

/-- `v[30:23]` (R9, R15). -/
def expField (v : Word) : BitVec 8 := v.extractLsb' 23 8

/-- `v[22:0]` (R9, R15). -/
def fracField (v : Word) : BitVec 23 := v.extractLsb' 0 23

/-- `v[31]` (R9, R15). -/
def signField (v : Word) : Bool := v.getLsbD 31

/-- `isZero(v)`: `v[30:0] = 0` (R9). -/
def isZero (v : Word) : Bool := expField v == 0#8 && fracField v == 0#23

/-- `isSubnormal(v)`: `v[30:23] = 0` and `v[22:0] ≠ 0` (R9, R10). -/
def isSubnormal (v : Word) : Bool := expField v == 0#8 && fracField v != 0#23

/-- `1 ≤ v[30:23] ≤ 254` (R9). -/
def isNormal (v : Word) : Bool := expField v != 0#8 && expField v != 255#8

/-- `v[30:23] = 255` and `v[22:0] = 0` (R9). -/
def isInf (v : Word) : Bool := expField v == 255#8 && fracField v == 0#23

/-- `v[30:23] = 255` and `v[22:0] ≠ 0` (R9). -/
def isNaN (v : Word) : Bool := expField v == 255#8 && fracField v != 0#23

/-- A NaN with `v[22] = 1` (R9). -/
def isQuietNaN (v : Word) : Bool := isNaN v && v.getLsbD 22

/-- Neither an infinity nor a NaN. -/
def isFinite (v : Word) : Bool := expField v != 255#8

/-- The quiet NaN with a drawn sign and payload (R58). -/
def quietNaN (d : BitVec 23) : Word := d.extractLsb' 22 1 ++ 255#8 ++ 1#1 ++ d.extractLsb' 0 22

/-- The quiet NaN that draw number `n` gives (R58, decision D6). DESIGN CHOICE, safe but for a claim that compares two runs: log entry 1. -/
def drawnNaN (n : Nat) : Word := quietNaN (Config.nanDraw n)

/-- `q` with its sign bit inverted (R57). -/
def negate (q : Word) : Word := q ^^^ 0x80000000#32

/-- `fmul(p, q)` (R10, R57); `nan` is what an invalid operation or a NaN operand returns (R58). -/
def fmul (nan p q : Word) : Word :=
  BitVec.ofNat 32 (mulDatum binary32 nan.toNat (datum binary32 p.toNat) (datum binary32 q.toNat))

/-- `fadd(p, q)` (R10, R57). -/
def fadd (nan p q : Word) : Word :=
  BitVec.ofNat 32 (addDatum binary32 nan.toNat (datum binary32 p.toNat) (datum binary32 q.toNat))

/-- `fsub(p, q) = fadd(p, q with its sign bit inverted)` (R10, R57). With a NaN `q` either side is a NaN. -/
def fsub (nan p q : Word) : Word := fadd nan p (negate q)

/-! ## binary64: the controller's comparisons and the default engine -/

def eq64 (p q : Binary64) : Bool := eqDatum (datum binary64 p.toNat) (datum binary64 q.toNat)

def le64 (p q : Binary64) : Bool := leDatum (datum binary64 p.toNat) (datum binary64 q.toNat)

def isNaN64 (v : Binary64) : Bool := datum binary64 v.toNat == .nan

/-- The quiet binary64 NaN with a given sign and payload. -/
def quietNaN64 (d : BitVec 52) : Binary64 := d.extractLsb' 51 1 ++ 2047#11 ++ 1#1 ++ d.extractLsb' 0 51

def add64 (nan p q : Binary64) : Binary64 :=
  BitVec.ofNat 64 (addDatum binary64 nan.toNat (datum binary64 p.toNat) (datum binary64 q.toNat))

def negate64 (q : Binary64) : Binary64 := q ^^^ 0x8000000000000000#64

def sub64 (nan p q : Binary64) : Binary64 := add64 nan p (negate64 q)

def mul64 (nan p q : Binary64) : Binary64 :=
  BitVec.ofNat 64 (mulDatum binary64 nan.toNat (datum binary64 p.toNat) (datum binary64 q.toNat))

def div64 (nan p q : Binary64) : Binary64 :=
  BitVec.ofNat 64 (divDatum binary64 nan.toNat (datum binary64 p.toNat) (datum binary64 q.toNat))

/-- The binary64 nearest to a whole number. -/
def natTo64 (n : Nat) : Binary64 := BitVec.ofNat 64 (roundFinite binary64 (n * quantaPerOne binary64) 1)

/-- One rounding to binary32, to nearest, ties to even, with overflow to infinity and NaN to a quiet NaN (R75). -/
def narrow (nan : Word) (v : Binary64) : Word :=
  match datum binary64 v.toNat with
  | .nan => nan
  | .inf s => BitVec.ofNat 32 (withSign binary32 s (infMag binary32))
  | .fin s m =>
    BitVec.ofNat 32 (withSign binary32 s (roundFinite binary32 (m * quantaPerOne binary32) (quantaPerOne binary64)))

end Sys2Proof.Machine
end

