-- ==== Sys2Proof/Machine/Operands.lean ====
section
/-! DEFINITION. The register operands of the commands: the coefficient set as a whole and the four state registers
(10_state.md R14, R19, R36; 40_datapath.md R59, R66). The operands that arrive on the buses are the decoder's. -/

namespace Sys2Proof.Machine

/-- The coefficient set a PROCESS reads (R17, R39). -/
def Cell.coeffs (c : Cell) : Coeffs := ⟨c.a0, c.a1, c.a2, c.b1, c.b2⟩

/-- All five coefficients are written together (R36, R66, R67). -/
def Cell.setCoeffs (k : Coeffs) (c : Cell) : Cell :=
  { c with a0 := k.a0, a1 := k.a1, a2 := k.a2, b1 := k.b1, b2 := k.b2 }

/-- The delay lines move by one position: `y2 ← y1`, `y1 ← output`, `x2 ← x1`, `x1 ← sample`, each from the old
value (R29, R63). -/
def Cell.shiftIn (sample output : Word) (c : Cell) : Cell :=
  { c with x1 := sample, x2 := c.x1, y1 := output, y2 := c.y1 }

/-- The four state registers at `+0` (R68). -/
def Cell.zeroHistory (c : Cell) : Cell :=
  { c with x1 := posZero, x2 := posZero, y1 := posZero, y2 := posZero }

/-- The port `dout` shows `y1` at all times (R23). -/
def Cell.dout (c : Cell) : Word := c.y1

/-- The port `dout_valid` shows the flag (R24). -/
def Cell.doutValid (c : Cell) : Bool := c.valid

end Sys2Proof.Machine
end

