-- ==== Sys2Proof/Machine/Flags.lean ====
section
/-! DEFINITION. The cell's only flag, `valid` (10_state.md R24, R25): what each command leaves in it. No arithmetic status
exists, and no command reads the flag. -/

namespace Sys2Proof.Machine

def Cell.setValid (v : Bool) (c : Cell) : Cell := { c with valid := v }

/-- `valid` after each command: 1 after PROCESS, 0 after the others (R24). -/
def validAfter : Instr → Bool
  | .nop => false
  | .process _ => true
  | .load _ _ _ _ _ => false
  | .reset => false

end Sys2Proof.Machine
end

