-- ==== Sys2Proof/Machine/Ops.lean ====
section
/-! DEFINITION. The operations the meanings share: the recurrence and the clamp of the datapath (40_datapath.md R59, R60),
performing a command on the cell (R29, R31, R61), and the INIT event (70_reset_and_hazards.md R124). The machine takes no
exception and returns from none (60_exceptions.md R111, R115, R116), so there is no operation for either. -/

namespace Sys2Proof.Machine

/-- How many rounded operations a PROCESS performs, each with its own NaN draw (R58, R59). -/
def drawsPerProcess : Nat := 9

/-- `acc` of the recurrence: five products and four sums, left to right, each rounded (R59). Its NaN draws are number `n`
and the eight after it. -/
def recurrence (n : Nat) (sample : Word) (c : Cell) : Word :=
  let t0 := fmul (drawnNaN n) c.a0 sample
  let t1 := fmul (drawnNaN (n + 1)) c.a1 c.x1
  let t2 := fmul (drawnNaN (n + 2)) c.a2 c.x2
  let t3 := fmul (drawnNaN (n + 3)) c.b1 c.y1
  let t4 := fmul (drawnNaN (n + 4)) c.b2 c.y2
  let s1 := fadd (drawnNaN (n + 5)) t0 t1
  let s2 := fadd (drawnNaN (n + 6)) s1 t2
  let s3 := fsub (drawnNaN (n + 7)) s2 t3
  fsub (drawnNaN (n + 8)) s3 t4

/-- Denormal protection: a subnormal `acc` is forced to `+0`, anything else passes bit for bit (R60). -/
def clamp (acc : Word) : Word := if isSubnormal acc then posZero else acc

/-- A command on the machine's cell: refused before the first INIT (R31), otherwise performed on the cell as it is, with
the NaN draws from `s.draws` on, of which it takes `used`. -/
def State.command (used : Nat) (f : Nat → Cell → Cell) (s : State) : Host.Outcome State Fault Refusal :=
  if s.initialised then .next { s with cell := f s.draws s.cell, draws := s.draws + used }
  else .refused .commandBeforeInit

/-- INIT: every piece of the cell's state, whatever it was (R124). -/
def State.initCell (s : State) : State := { s with cell := Cell.fresh, initialised := true }

end Sys2Proof.Machine
end

