-- ==== Sys2Proof/Machine/Commands.lean ====
section
/-! DEFINITION. The meanings of the four commands: what each does to one cell, and the command on the machine's cell
(40_datapath.md R62, R63, R66, R68). -/

namespace Sys2Proof.Machine

/-- NOP on a cell: `valid <- 0` (R62). -/
def Cell.nop (c : Cell) : Cell := c.setValid (validAfter .nop)

/-- PROCESS on a cell (R63). -/
def Cell.process (n : Nat) (sample : Word) (c : Cell) : Cell :=
  (c.shiftIn sample (clamp (recurrence n sample c))).setValid (validAfter (.process sample))

/-- LOAD on a cell (R66). -/
def Cell.load (k : Coeffs) (c : Cell) : Cell :=
  (c.setCoeffs k).setValid (validAfter (.load k.a0 k.a1 k.a2 k.b1 k.b2))

/-- RESET on a cell (R68). -/
def Cell.reset (c : Cell) : Cell := c.zeroHistory.setValid (validAfter .reset)

/-- NOP (R62). -/
def execNop (s : State) : Host.Outcome State Fault Refusal := s.command 0 fun _ c => c.nop

/-- PROCESS (R63). -/
def execProcess (sample : Word) (s : State) : Host.Outcome State Fault Refusal :=
  s.command drawsPerProcess fun n c => c.process n sample

/-- LOAD (R66). -/
def execLoad (a0 a1 a2 b1 b2 : Word) (s : State) : Host.Outcome State Fault Refusal :=
  s.command 0 fun _ c => c.load ⟨a0, a1, a2, b1, b2⟩

/-- RESET (R68). -/
def execReset (s : State) : Host.Outcome State Fault Refusal := s.command 0 fun _ c => c.reset

end Sys2Proof.Machine
end

