-- ==== Sys2Proof/Machine/Dispatch.lean ====
section
/-! DEFINITION. Which meaning each command has (30_encoding.md R46). -/

namespace Sys2Proof.Machine

def exec (i : Instr) (s : State) : Host.Outcome State Fault Refusal :=
  match i with
  | .nop => Sys2Proof.Machine.execNop s
  | .process sample => Sys2Proof.Machine.execProcess sample s
  | .load a0 a1 a2 b1 b2 => Sys2Proof.Machine.execLoad a0 a1 a2 b1 b2 s
  | .reset => Sys2Proof.Machine.execReset s

end Sys2Proof.Machine
end

