-- ==== Sys2Proof/Machine/Engine.lean ====
section
/-! DEFINITION. The coefficient engine (45_coefficient_engine.md): the formulas as the source writes them, their
normalisation, and the default arithmetic the spec describes. -/

namespace Sys2Proof.Machine

/-! ## The formulas -/

def two : CoefExpr := .nat 2

/-- `ω = ((2·π)·frequencyHz)/sampleRateHz` (R76). -/
def omega (frequencyHz sampleRateHz : Binary64) : CoefExpr :=
  .div (.mul (.mul two .pi) (.input frequencyHz)) (.input sampleRateHz)

/-- `sn = sin(ω)` (R76). -/
def sinOmega (frequencyHz sampleRateHz : Binary64) : CoefExpr := .sin (omega frequencyHz sampleRateHz)

/-- `cs = cos(ω)` (R76). -/
def cosOmega (frequencyHz sampleRateHz : Binary64) : CoefExpr := .cos (omega frequencyHz sampleRateHz)

/-- `α = sn · sin(((((ln 2)/2)·bandwidthOctaves)·ω)/sn)`, a plain sine (R77). -/
def alpha (frequencyHz sampleRateHz bandwidthOctaves : Binary64) : CoefExpr :=
  let sn := sinOmega frequencyHz sampleRateHz
  .mul sn (.sin (.div (.mul (.mul (.div (.ln two) two) (.input bandwidthOctaves)) (omega frequencyHz sampleRateHz)) sn))

/-- `amp = 10^(gainDb/40)` (R82). -/
def amplitude (gainDb : Binary64) : CoefExpr := .pow10 (.div (.input gainDb) (.nat 40))

/-- The six values of each filter type (R78 to R83). Only ParametricEQ reads the gain (R84). -/
def unnormalised (type : FilterType) (frequencyHz sampleRateHz bandwidthOctaves gainDb : Binary64) : Unnormalised :=
  let c1 : CoefExpr := .nat 1
  let cs := cosOmega frequencyHz sampleRateHz
  let al := alpha frequencyHz sampleRateHz bandwidthOctaves
  let minus2cs : CoefExpr := .neg (.mul two cs)
  match type with
  | .lowpass =>
    { a0 := .div (.sub c1 cs) two, a1 := .sub c1 cs, a2 := .div (.sub c1 cs) two,
      b0 := .add c1 al, b1 := minus2cs, b2 := .sub c1 al }
  | .highpass =>
    { a0 := .div (.add c1 cs) two, a1 := .neg (.add c1 cs), a2 := .div (.add c1 cs) two,
      b0 := .add c1 al, b1 := minus2cs, b2 := .sub c1 al }
  | .bandpass =>
    { a0 := al, a1 := .nat 0, a2 := .neg al,
      b0 := .add c1 al, b1 := minus2cs, b2 := .sub c1 al }
  | .notch =>
    { a0 := c1, a1 := minus2cs, a2 := c1,
      b0 := .add c1 al, b1 := minus2cs, b2 := .sub c1 al }
  | .parametricEQ =>
    let amp := amplitude gainDb
    { a0 := .add c1 (.mul al amp), a1 := minus2cs, a2 := .sub c1 (.mul al amp),
      b0 := .add c1 (.div al amp), b1 := minus2cs, b2 := .sub c1 (.div al amp) }
  | .allPass =>
    { a0 := .sub c1 al, a1 := minus2cs, a2 := .add c1 al,
      b0 := .add c1 al, b1 := minus2cs, b2 := .sub c1 al }

/-- Normalisation: each of the five divided by `b0` (R85). -/
def normalise (u : Unnormalised) : Normalised where
  a0 := .div u.a0 u.b0
  a1 := .div u.a1 u.b0
  a2 := .div u.a2 u.b0
  b1 := .div u.b1 u.b0
  b2 := .div u.b2 u.b0

/-- The engine under a given `COEF_ARITH` (R73, R75, R85). -/
def coeffsWith (evaluate : FilterType → Normalised → Coeffs) (type : FilterType)
    (frequencyHz sampleRateHz bandwidthOctaves gainDb : Binary64) : Coeffs :=
  evaluate type (normalise (unnormalised type frequencyHz sampleRateHz bandwidthOctaves gainDb))

/-- What a ParametricEQ set is at 0 dB: `a1 = b1` and `a2 = b2` bit for bit, and `a0 = 1.0` where `b0` is finite and not zero
(R86, R87; 90_conflicts.md C4). -/
def unitySet (b0FiniteNonzero : Bool) (k : Coeffs) : Coeffs :=
  { k with a0 := if b0FiniteNonzero then one else k.a0, a1 := k.b1, a2 := k.b2 }

/-- The machine's engine: `COEF_ARITH` is left open, and the engine has the properties of R84, R85 and R87 only (R73, R75;
93_implementation_defined.md section 1). A gain of either zero is 0 dB. DEDUCED: R87's
conditions are taken to hold, which is unsafe for an engine that does not meet them: log entry 3. -/
def coeffs (type : FilterType) (frequencyHz sampleRateHz bandwidthOctaves gainDb : Binary64) : Coeffs :=
  let k := coeffsWith Config.coefEval type frequencyHz sampleRateHz bandwidthOctaves gainDb
  if type == .parametricEQ && eq64 gainDb 0#64 then
    unitySet (Config.b0FiniteNonzero (unnormalised type frequencyHz sampleRateHz bandwidthOctaves gainDb)) k
  else k

/-! ## A step-by-step arithmetic -/

/-- The value of an expression in an arithmetic, innermost operation first (R75). -/
def evalWith {α : Type} (A : CoefArith α) : CoefExpr → α
  | .nat n => A.nat n
  | .input v => A.input v
  | .pi => A.pi
  | .add x y => A.add (evalWith A x) (evalWith A y)
  | .sub x y => A.sub (evalWith A x) (evalWith A y)
  | .mul x y => A.mul (evalWith A x) (evalWith A y)
  | .div x y => A.div (evalWith A x) (evalWith A y)
  | .neg x => A.neg (evalWith A x)
  | .sin x => A.sin (evalWith A x)
  | .cos x => A.cos (evalWith A x)
  | .ln x => A.ln (evalWith A x)
  | .pow10 x => A.pow10 (evalWith A x)

/-- The `COEF_ARITH` that an arithmetic is: each quotient evaluated, and rounded once to binary32 (R75). -/
def roundedWith {α : Type} (A : CoefArith α) (_ : FilterType) (q : Normalised) : Coeffs where
  a0 := A.toBinary32 (evalWith A q.a0)
  a1 := A.toBinary32 (evalWith A q.a1)
  a2 := A.toBinary32 (evalWith A q.a2)
  b1 := A.toBinary32 (evalWith A q.b1)
  b2 := A.toBinary32 (evalWith A q.b2)

/-- The default `COEF_ARITH` (R75, R76): binary64 throughout, the host's function library, `π` the nearest binary64.
DESIGN CHOICE, not used by any step; the binary64 format is PRESUMED, unsafe: log entry 11. -/
def defaultArith (L : HostLibrary) : CoefArith Binary64 where
  nat := natTo64
  input v := v
  pi := 0x400921FB54442D18#64
  add := add64 (quietNaN64 L.nan64)
  sub := sub64 (quietNaN64 L.nan64)
  mul := mul64 (quietNaN64 L.nan64)
  div := div64 (quietNaN64 L.nan64)
  neg := negate64
  sin := L.sin
  cos := L.cos
  ln := L.ln
  pow10 := L.pow10
  toBinary32 := narrow (quietNaN L.nan32)

end Sys2Proof.Machine
end

