-- ==== Sys2Proof/Machine/Band.lean ====
section
/-! DEFINITION. One band, the source's BandFilter (46_cascade_controller.md R89 to R102): its operations, each as the
commands it gives the band's cells, and a step that performs one. -/

namespace Sys2Proof.Machine

/-! ## Constants -/

/-- 20 Hz, the frequency floor of `init` and `setParams` (R91, R95). -/
def hz20 : Binary64 := 0x4034000000000000#64

/-- 0 Hz, the frequency floor of `setFrequency` (R97). -/
def hz0 : Binary64 := 0#64

/-- A band's `init` with the defaults `frequencyHz = 20000`, `bandwidthOctaves = 2.0`, `gainDb = 0` (R91). -/
def initWithDefaults (sampleRateHz : Binary64) (channelCount : Nat) (type : BitVec 3) : BandOp :=
  .init sampleRateHz channelCount type 0x40D3880000000000#64 0x4000000000000000#64 0#64

/-! ## Comparing and clamping parameters -/

/-- Change detection: not equal as binary64 values, so a NaN always differs (R94, decision D24). -/
def differs (incoming stored : Binary64) : Bool := !eq64 incoming stored

/-- A frequency at or below the floor becomes the floor; a NaN stays (R91, R97, R109, decision D24). DEDUCED, unsafe for the sign of a zero: log entry 7. -/
def clampFrequency (floor f : Binary64) : Binary64 := if le64 f floor then floor else f

/-! ## The cells of a band -/

/-- A cell on which, between the commands of the controller, a NOP step may or may not pass. DESIGN CHOICE, safe: log entry 2. -/
def Cell.idle (nopStep : Bool) (c : Cell) : Cell := if nopStep then c.nop else c

def settleCells (n : Nat) : List Cell → List Cell
  | [] => []
  | c :: cs => c.idle (Config.idleStep n) :: settleCells (n + 1) cs

/-- PROCESS to every cell, each with its channel's sample; the NaN draws go on from cell to cell (R92). -/
def processCells (n : Nat) : List Cell → List Word → List Cell
  | c :: cs, x :: xs => c.process n x :: processCells (n + drawsPerProcess) cs xs
  | [], _ => []
  | c :: cs, [] => c :: cs

/-! ## The operations -/

/-- The band's coefficients as the engine derives them from the stored parameters (R73, R89). -/
def Band.coeffs (b : Band) : Coeffs :=
  Machine.coeffs b.filterType b.frequencyHz b.sampleRateHz b.bandwidthOctaves b.gainDb

/-- One LOAD of the band's coefficients, the same for every cell (R85, R102). -/
def Band.broadcastLoad (b : Band) : Band := { b with cells := b.cells.map (Cell.load b.coeffs) }

/-- RESET to every cell (R93). -/
def Band.broadcastReset (b : Band) : Band := { b with cells := b.cells.map Cell.reset }

/-- `init`: store, then INIT, RESET and one LOAD to every cell (R91). -/
def Band.init (sampleRateHz : Binary64) (channelCount : Nat) (type : FilterType)
    (frequencyHz bandwidthOctaves gainDb : Binary64) : Band :=
  Band.broadcastLoad <| Band.broadcastReset
    { initialised := true, filterType := type, frequencyHz := clampFrequency hz20 frequencyHz,
      bandwidthOctaves := bandwidthOctaves, gainDb := gainDb, enabled := true, sampleRateHz := sampleRateHz,
      channelCount := channelCount, cells := List.replicate channelCount Cell.fresh }

/-- `processFrame`: what the band becomes and the samples it returns; a disabled band passes the frame and gives its
cells no command (R92). -/
def Band.processFrame (n : Nat) (inSamples : List Word) (b : Band) : Band × List Word :=
  if b.enabled then
    let cells := processCells n b.cells inSamples
    ({ b with cells := cells }, cells.map Cell.dout)
  else (b, inSamples)

/-- An operation other than `init` and `processFrame` on a band that has had no `init` is ignored (R101). -/
def Band.whenInitialised (f : Band → Band) (b : Band) : Band := if b.initialised then f b else b

/-- `reset()` (R93). -/
def Band.reset (b : Band) : Band := b.whenInitialised Band.broadcastReset

/-- `setParams`: the gain is relevant only when the incoming type is ParametricEQ; all four are stored (R95).
DEDUCED, unsafe for the sign of a zero: log entry 10. -/
def Band.setParams (type : FilterType) (frequencyHz bandwidthOctaves gainDb : Binary64) (b : Band) : Band :=
  b.whenInitialised fun b =>
    let stored : Band :=
      { b with filterType := type, frequencyHz := clampFrequency hz20 frequencyHz,
               bandwidthOctaves := bandwidthOctaves, gainDb := gainDb }
    if type != b.filterType || differs frequencyHz b.frequencyHz || differs bandwidthOctaves b.bandwidthOctaves
        || (type == .parametricEQ && differs gainDb b.gainDb)
    then stored.broadcastLoad else stored

/-- `setType` (R96). -/
def Band.setType (type : FilterType) (b : Band) : Band :=
  b.whenInitialised fun b => if type != b.filterType then Band.broadcastLoad { b with filterType := type } else b

/-- `setFrequency`: compared before the clamp, stored after it (R94, R97). -/
def Band.setFrequency (frequencyHz : Binary64) (b : Band) : Band :=
  b.whenInitialised fun b =>
    if differs frequencyHz b.frequencyHz
    then Band.broadcastLoad { b with frequencyHz := clampFrequency hz0 frequencyHz } else b

/-- `setBandwidth` (R98). -/
def Band.setBandwidth (bandwidthOctaves : Binary64) (b : Band) : Band :=
  b.whenInitialised fun b =>
    if differs bandwidthOctaves b.bandwidthOctaves
    then Band.broadcastLoad { b with bandwidthOctaves := bandwidthOctaves } else b

/-- `setGainDb`: a changed gain is stored; it is loaded only for ParametricEQ (R99). -/
def Band.setGainDb (gainDb : Binary64) (b : Band) : Band :=
  b.whenInitialised fun b =>
    if differs gainDb b.gainDb then
      let stored : Band := { b with gainDb := gainDb }
      if b.filterType == .parametricEQ then stored.broadcastLoad else stored
    else b

/-- `setEnabled`: no command (R100). -/
def Band.setEnabled (enabled : Bool) (b : Band) : Band := b.whenInitialised fun b => { b with enabled := enabled }

/-- The band with what NOP steps its cells saw after the operation. DESIGN CHOICE: both outcomes are open, which is safe, and
the NOPs of a band's cells fall here only, which is unsafe for a claim about `valid` in other steps: log entry 2. -/
def Band.settle (n : Nat) (b : Band) : Band := { b with cells := settleCells n b.cells }

/-! ## One step of the machine's band -/

/-- How many draws a controller operation takes for each cell: a PROCESS's, and one for `Cell.idle`. -/
def drawsPerCell : Nat := drawsPerProcess + 1

/-- The band after an operation whose PROCESS draws, if any, began at `s.draws`. -/
def State.putBand (b : Band) (s : State) : State :=
  { s with band := b.settle (s.draws + drawsPerProcess * b.cells.length),
           draws := s.draws + drawsPerCell * b.cells.length }

/-- The operation with its filter type decoded: codes 6 and 7 are refused (R74). DESIGN CHOICE where R101 or R105 would
ignore the operation, safe: log entry 9. -/
def withFilterType (code : BitVec 3) (f : FilterType → Host.Outcome State Fault Refusal) :
    Host.Outcome State Fault Refusal :=
  match FilterType.ofCode code with
  | some type => f type
  | none => .refused .unknownFilterType

/-- One whole operation on the machine's band (R91 to R101, R108), in one step. DEDUCED, safe: log entry 12. -/
def stepBand (op : BandOp) (s : State) : Host.Outcome State Fault Refusal :=
  match op with
  | .init sampleRateHz channelCount code frequencyHz bandwidthOctaves gainDb =>
    withFilterType code fun type =>
      if channelCountWellFormed channelCount then
        .next (s.putBand (Band.init sampleRateHz channelCount type frequencyHz bandwidthOctaves gainDb))
      else .refused .channelCountOutOfRange
  | .processFrame inSamples =>
    if !s.band.initialised then .refused .frameBeforeInit
    else if inSamples.length ≠ s.band.channelCount then .refused .frameWidthMismatch
    else
      let r := s.band.processFrame s.draws inSamples
      .next { s.putBand r.1 with outSamples := r.2 }
  | .reset => .next (s.putBand s.band.reset)
  | .setParams code frequencyHz bandwidthOctaves gainDb =>
    withFilterType code fun type => .next (s.putBand (s.band.setParams type frequencyHz bandwidthOctaves gainDb))
  | .setType code => withFilterType code fun type => .next (s.putBand (s.band.setType type))
  | .setFrequency frequencyHz => .next (s.putBand (s.band.setFrequency frequencyHz))
  | .setBandwidth bandwidthOctaves => .next (s.putBand (s.band.setBandwidth bandwidthOctaves))
  | .setGainDb gainDb => .next (s.putBand (s.band.setGainDb gainDb))
  | .setEnabled enabled => .next (s.putBand (s.band.setEnabled enabled))

end Sys2Proof.Machine
end

