-- ==== Sys2Proof/Machine/Equalizer.lean ====
section
/-! DEFINITION. The cascade, the source's Equalizer (46_cascade_controller.md R103 to R110): its operations and a step that
performs one. -/

namespace Sys2Proof.Machine

/-- 500 Hz, the frequency of a fresh band of the cascade (R104). -/
def hz500 : Binary64 := 0x407F400000000000#64

/-- One octave, its bandwidth (R104). -/
def oneOctave : Binary64 := 0x3FF0000000000000#64

/-- 0 dB, its gain (R104). -/
def zeroDb : Binary64 := 0#64

/-- `init`: `bandCount` bands, each initialised as ParametricEQ, 500 Hz, bandwidth 1.0, gain 0 dB (R104). -/
def Equalizer.init (sampleRateHz : Binary64) (bandCount channelCount : Nat) : Equalizer where
  initialised := true
  bandCount := bandCount
  channelCount := channelCount
  sampleRateHz := sampleRateHz
  bands := List.replicate bandCount (Band.init sampleRateHz channelCount .parametricEQ hz500 oneOctave zeroDb)

/-- An index-addressed setter: delegated to its band; out of range, or before `init`, nothing happens (R105). -/
def Equalizer.onBand (bandIndex : Int) (f : Band → Band) (e : Equalizer) : Equalizer :=
  if e.initialised ∧ 0 ≤ bandIndex ∧ bandIndex < (e.bandCount : Int)
  then { e with bands := e.bands.modify bandIndex.toNat f } else e

/-- A frame through the bands in index order, each taking the output of the one before; the NaN draws go on from band to
band (R106). -/
def processBands (n : Nat) : List Band → List Word → List Band × List Word
  | [], v => ([], v)
  | b :: bs, v =>
    let r := b.processFrame n v
    let rest := processBands (n + drawsPerProcess * b.cells.length) bs r.2
    (r.1 :: rest.1, rest.2)

def settleBands (n : Nat) : List Band → List Band
  | [] => []
  | b :: bs => b.settle n :: settleBands (n + b.cells.length) bs

/-- How many cells the cascade has (R121). -/
def Equalizer.cellCount (e : Equalizer) : Nat := (e.bands.map fun b => b.cells.length).sum

/-- The cascade after an operation whose PROCESS draws, if any, began at `s.draws`. -/
def State.putEqualizer (e : Equalizer) (s : State) : State :=
  { s with equalizer := { e with bands := settleBands (s.draws + drawsPerProcess * e.cellCount) e.bands },
           draws := s.draws + drawsPerCell * e.cellCount }

/-- One whole operation on the machine's cascade (R104 to R108), in one step. DEDUCED, safe: log entry 12. -/
def stepEqualizer (op : EqualizerOp) (s : State) : Host.Outcome State Fault Refusal :=
  match op with
  | .init sampleRateHz bandCount channelCount =>
    if !channelCountWellFormed channelCount then .refused .channelCountOutOfRange
    else if !bandCountWellFormed bandCount then .refused .bandCountOutOfRange
    else .next (s.putEqualizer (Equalizer.init sampleRateHz bandCount channelCount))
  | .processFrame inSamples =>
    if !s.equalizer.initialised then .refused .frameBeforeInit
    else if inSamples.length ≠ s.equalizer.channelCount then .refused .frameWidthMismatch
    else
      let r := processBands s.draws s.equalizer.bands inSamples
      .next { s.putEqualizer { s.equalizer with bands := r.1 } with outSamples := r.2 }
  | .setBandEnabled k enabled => .next (s.putEqualizer (s.equalizer.onBand k (Band.setEnabled enabled)))
  | .setBandParams k code frequencyHz bandwidthOctaves gainDb =>
    withFilterType code fun type =>
      .next (s.putEqualizer (s.equalizer.onBand k (Band.setParams type frequencyHz bandwidthOctaves gainDb)))
  | .setBandFrequency k frequencyHz =>
    .next (s.putEqualizer (s.equalizer.onBand k (Band.setFrequency frequencyHz)))
  | .setBandwidth k bandwidthOctaves =>
    .next (s.putEqualizer (s.equalizer.onBand k (Band.setBandwidth bandwidthOctaves)))
  | .setBandGainDb k gainDb => .next (s.putEqualizer (s.equalizer.onBand k (Band.setGainDb gainDb)))

end Sys2Proof.Machine
end

