-- ==== Sys2Proof/Machine/Inputs.lean ====
section
/-! DEFINITION. What one step does with what the environment presents (30_encoding.md R44, R51; 60_exceptions.md R114;
46_cascade_controller.md R107, R110). -/

namespace Sys2Proof.Machine

/-- A port tuple: INIT when `init = 1`, whatever the other ports carry, otherwise the command (R44, R51, R61, R114). -/
def stepPort (p : Port) (s : State) : Host.Outcome State Fault Refusal :=
  if p.init then .next s.initCell else exec (decode p.cmd) s

/-- A step in which the environment presents nothing is the idle step, a NOP of the cell behind the ports (R62). That the
cells of the band and of the cascade take no step in it is a DESIGN CHOICE, unsafe for a claim about their `valid`: log entry 2. -/
def stepIdle (s : State) : Host.Outcome State Fault Refusal := exec .nop s

/-- One event, performed whole (R38, R107). That the cells of the systems it is not about take no step is a DESIGN CHOICE,
unsafe for a claim about their `valid`: log entry 2. -/
def stepInput (i : Input) (s : State) : Host.Outcome State Fault Refusal :=
  match i with
  | .port p => stepPort p s
  | .band op => stepBand op s
  | .equalizer op => stepEqualizer op s

/-- The environment presents the command in the low 194 bits of `w` in the next step, before everything else. -/
def State.presentCmd (w : Nat) (s : State) : State :=
  { s with inputs := .port (Port.ofCmd (BitVec.ofNat 194 w)) :: s.inputs }

end Sys2Proof.Machine
end

