-- ==== Sys2Proof/Machine/Step.lean ====
section
/-! DEFINITION. One step of the machine, and how a command comes to be presented to it (10_state.md R26; 20_memory.md
R38). -/

namespace Sys2Proof.Machine

/-- One step: the next of what the environment presents, or the idle step where it presents nothing (R26, R38, R62). -/
def step (s : State) : Host.Outcome State Fault Refusal :=
  match s.inputs with
  | [] => stepIdle s
  | i :: rest => stepInput i { s with inputs := rest }

/-- The command word `w` (its low `nbits` bits, the others 0) is what the environment presents next. The cell stores no
program (R26): the command goes to the head of `inputs`. DESIGN CHOICE, safe: log entry 6. -/
def State.withFetchWord (s : State) (nbits w : Nat) : State := s.presentCmd (w % 2 ^ nbits)

end Sys2Proof.Machine
end

