-- ==== Sys2Proof/Machine/Assembler.lean ====
section
/-! DEFINITION. The textual form of a command stream and its listing (30_encoding.md R53 to R55). It is notation: no step
of the machine reads it. DESIGN CHOICE, safe: log entry 8. -/

namespace Sys2Proof.Machine

/-- Why a line is not assembled. -/
inductive AsmError where
  | unknownMnemonic
  | badOperand
  | wrongOperandCount
  deriving DecidableEq, Repr

/-! ## Characters and numbers -/

def isBlank (c : Char) : Bool := c == ' ' || c == '\t' || c == '\r'

/-- The text without blanks at either end. -/
def trim (cs : List Char) : List Char := ((cs.dropWhile isBlank).reverse.dropWhile isBlank).reverse

/-- What stands before the first `sep`, and what stands after it where there is one. -/
def splitFirst (sep : Char) : List Char → List Char × Option (List Char)
  | [] => ([], none)
  | c :: cs =>
    if c == sep then ([], some cs)
    else
      let r := splitFirst sep cs
      (c :: r.1, r.2)

/-- The pieces between the separators; `cur` is the piece being read, backwards. -/
def splitAll (sep : Char) (cur : List Char) : List Char → List (List Char)
  | [] => [cur.reverse]
  | c :: cs => if c == sep then cur.reverse :: splitAll sep [] cs else splitAll sep (c :: cur) cs

/-- The hexadecimal digits in the order of their values. -/
def digitChars : List Char := "0123456789ABCDEF".toList

/-- The value of a digit of the base: its place among the digits, in either case. -/
def digitOf (base : Nat) (c : Char) : Option Nat := (digitChars.take base).idxOf? c.toUpper

/-- A number of at least one digit. -/
def readNat (base : Nat) (cs : List Char) : Option Nat :=
  if cs.isEmpty then none else (cs.mapM (digitOf base)).map (List.foldl (fun n d => base * n + d) 0)

/-- An optional sign, then the rest. -/
def readSign : List Char → Bool × List Char
  | '-' :: cs => (true, cs)
  | '+' :: cs => (false, cs)
  | cs => (false, cs)

/-! ## Operands -/

/-- The binary32 nearest to `(-1)^neg · digits · 10^exponent`, ties to even (R53). That a literal that rounds to a zero keeps
its sign, so a negative one gives `-0`, is a DESIGN CHOICE, safe: log entry 8. -/
def decimalToWord (neg : Bool) (digits : Nat) (exponent : Int) : Word :=
  let num := digits * quantaPerOne binary32 * 10 ^ exponent.toNat
  let den := 10 ^ (-exponent).toNat
  BitVec.ofNat 32 (withSign binary32 neg (roundFinite binary32 num den))

/-- The exponent of a decimal literal: what stands after its `e`, 0 where there is none. -/
def readExponent : Option (List Char) → Option Int
  | none => some 0
  | some cs =>
    let (neg, ds) := readSign cs
    match readNat 10 ds with
    | some n => some (if neg then -(n : Int) else (n : Int))
    | none => none

/-- A decimal literal: `1.0`, `-0.25`, `1e-3`, `+0`, `-0` (R53). -/
def readDecimal (cs : List Char) : Option Word :=
  let (neg, body) := readSign cs
  let (mantissa, expText) := splitFirst 'e' body
  let (whole, fracText) := splitFirst '.' mantissa
  let frac := fracText.getD []
  if whole.isEmpty || (fracText.isSome && frac.isEmpty) then none
  else
    match readNat 10 (whole ++ frac), readExponent expText with
    | some digits, some e => some (decimalToWord neg digits (e - frac.length))
    | _, _ => none

/-- An operand `<v>`: `0x` and exactly 8 hexadecimal digits, `inf`, `-inf`, `nan`, or a decimal literal (R53). -/
def readOperand (text : List Char) : Option Word :=
  let cs := trim text
  if cs = "nan".toList then some 0x7FC00000#32
  else if cs = "inf".toList then some 0x7F800000#32
  else if cs = "-inf".toList then some 0xFF800000#32
  else if cs.take 2 = "0x".toList then
    if (cs.drop 2).length = 8 then (readNat 16 (cs.drop 2)).map (BitVec.ofNat 32) else none
  else readDecimal cs

/-! ## Lines -/

/-- The port tuple of a step with `init = 1`, its other ports 0 (R53). -/
def initPort : Port := ⟨true, 0#2, 0#32, 0#160⟩

/-- `LOADID` (R54). -/
def loadId : Instr := .load one posZero posZero posZero posZero

/-- `ZERO` (R54). -/
def zeroSample : Instr := .process posZero

/-- `IMPULSE n`: the sample 1.0, then `n` samples `+0` (R54). -/
def impulse (n : Nat) : List Instr := .process one :: List.replicate n zeroSample

/-- The port tuples that present the commands, one a step. -/
def presentAll (is : List Instr) : List Port := is.map fun i => Port.ofCmd (encode i)

def loadOf : List (Option Word) → Except AsmError Instr
  | [some a0, some a1, some a2, some b1, some b2] => .ok (.load a0 a1 a2 b1 b2)
  | ws => if ws.length = 5 then .error .badOperand else .error .wrongOperandCount

/-- One line: at most one command, directive or pseudo-command, and a comment (R53, R54). That the `n` of `IMPULSE n` is an
unsigned decimal number, 0 allowed and no `0x` form, is a DESIGN CHOICE, safe: log entry 8. -/
def assembleLine (line : List Char) : Except AsmError (List Port) :=
  let text := trim (splitFirst ';' line).1
  let word := text.takeWhile fun c => !isBlank c
  let rest := trim (text.drop word.length)
  let alone (ps : List Port) : Except AsmError (List Port) := if rest.isEmpty then .ok ps else .error .wrongOperandCount
  if text.isEmpty then .ok []
  else if word = ".init".toList then alone [initPort]
  else if word = "NOP".toList then alone (presentAll [.nop])
  else if word = "RESET".toList then alone (presentAll [.reset])
  else if word = "LOADID".toList then alone (presentAll [loadId])
  else if word = "ZERO".toList then alone (presentAll [zeroSample])
  else if word = "PROCESS".toList then
    match readOperand rest with
    | some v => .ok (presentAll [.process v])
    | none => .error .badOperand
  else if word = "LOAD".toList then
    match loadOf ((splitAll ',' [] rest).map readOperand) with
    | .ok i => .ok (presentAll [i])
    | .error e => .error e
  else if word = "IMPULSE".toList then
    match readNat 10 rest with
    | some n => .ok (presentAll (impulse n))
    | none => .error .badOperand
  else .error .unknownMnemonic

def assembleLines : List (List Char) → Except AsmError (List Port)
  | [] => .ok []
  | l :: ls =>
    match assembleLine l, assembleLines ls with
    | .ok ps, .ok qs => .ok (ps ++ qs)
    | .error e, _ => .error e
    | .ok _, .error e => .error e

/-- A program text, one command a line, as the port tuples of its steps (R53). -/
def assemble (text : List Char) : Except AsmError (List Port) := assembleLines (splitAll '\n' [] text)

/-! ## The listing form -/

/-- A number in upper-case hexadecimal, without leading zeros. -/
def hexChars (n : Nat) : List Char := (Nat.toDigits 16 n).map Char.toUpper

/-- `op:din:a0:a1:a2:b1:b2`, each field in hexadecimal, an ignored field as `0` (R55). -/
def listing (i : Instr) : List Char :=
  let w := encode i
  let k := coefLanes (coefField w)
  let fields := [(opField w).toNat, (dinField w).toNat, k.a0.toNat, k.a1.toNat, k.a2.toNat, k.b1.toNat, k.b2.toNat]
  List.intercalate [':'] (fields.map hexChars)

end Sys2Proof.Machine
end

