-- ==== Sys2Proof/Machine/Value.lean ====
section
/-! DEFINITION. The number a finite binary32 pattern stands for, read from its fields (00_scope.md R9), in the terms
statements about rounding use. It does not go through `datum`, so that the two readings can be held against each other. -/

namespace Sys2Proof.Machine

/-- The magnitude of a finite pattern, in units of 2^-149: a subnormal's fraction, or `1.fraction` scaled by the
exponent (R9). -/
def magnitude (v : Word) : Nat :=
  if (expField v).toNat = 0 then (fracField v).toNat
  else (2 ^ 23 + (fracField v).toNat) * 2 ^ ((expField v).toNat - 1)

/-- The value of a finite pattern, in units of 2^-149 (R9). -/
def quanta (v : Word) : Int := if signField v then -(magnitude v : Int) else (magnitude v : Int)

/-- How far the finite `r` is from `exact / scale`, both in units of 2^-149, times `scale`. -/
def distance (exact : Int) (scale : Nat) (r : Word) : Int := |exact - quanta r * (scale : Int)|

/-- `r` is the binary32 nearest to `exact / scale`, and where another one is as near, `r` has the even significand
(R57). -/
def IsNearestEven (exact : Int) (scale : Nat) (r : Word) : Prop :=
  ∀ v : Word, isFinite v = true →
    distance exact scale r ≤ distance exact scale v ∧
    (distance exact scale v = distance exact scale r → quanta v ≠ quanta r → r.getLsbD 0 = false)

end Sys2Proof.Machine
end

