-- ==== Sys2Proof/Safety.lean ====
section
/-! DEFINITION. What holds of every state a run of the machine reaches, and runs of commands, in the terms the statements
use (10_state.md R30; 46_cascade_controller.md R89, R90, R103, R108). -/

namespace Sys2Proof.Machine

/-- `y1` and `y2` are never nonzero subnormals (R30). -/
def Cell.OutputsClamped (c : Cell) : Prop := isSubnormal c.y1 = false ∧ isSubnormal c.y2 = false

/-- What holds of a band that has had its `init`. -/
structure Band.Inv (b : Band) : Prop where
  /-- `1 .. MAX_CHANNELS` (R108). -/
  channelCount : channelCountWellFormed b.channelCount = true
  /-- One cell for each channel (R89, R90). -/
  cells : b.cells.length = b.channelCount
  /-- All channels hold identical coefficients (R90). -/
  coherent : ∀ c ∈ b.cells, ∀ d ∈ b.cells, c.coeffs = d.coeffs
  /-- R30, of each cell. -/
  clamped : ∀ c ∈ b.cells, c.OutputsClamped
  /-- The stored frequency is at least 0, or a NaN (R89, R97; 90_conflicts.md C2). -/
  frequency : le64 hz0 b.frequencyHz = true ∨ isNaN64 b.frequencyHz = true

/-- What holds of a cascade that has had its `init` (R103, R108). -/
structure Equalizer.Inv (e : Equalizer) : Prop where
  bandCount : bandCountWellFormed e.bandCount = true
  bands : e.bands.length = e.bandCount
  /-- All bands share the sample rate and the channel count, and each is an initialised band (R103, R104). -/
  each : ∀ b ∈ e.bands, b.initialised = true ∧ b.Inv ∧ b.channelCount = e.channelCount ∧ b.sampleRateHz = e.sampleRateHz

/-- The machine's invariant: each of the three systems, once it has been initialised, holds what its level promises. -/
structure State.Inv (s : State) : Prop where
  cell : s.initialised = true → s.cell.OutputsClamped
  band : s.band.initialised = true → s.band.Inv
  equalizer : s.equalizer.initialised = true → s.equalizer.Inv

/-! ## What controller operations leave, up to NOP steps -/

/-- `d` is `c`, or `c` after a NOP step (R62; 46_cascade_controller.md, introduction: "the cells see NOP steps only").
DESIGN CHOICE, safe: log entry 2. -/
def Cell.IdleOf (d c : Cell) : Prop := d = c ∨ d = { c with valid := false }

/-- `d` is `b`, but that any of its cells may have seen a NOP step. -/
def Band.IdleOf (d b : Band) : Prop := ∃ cs, List.Forall₂ Cell.IdleOf cs b.cells ∧ d = { b with cells := cs }

/-- `d` is `e`, but that any of its cells may have seen a NOP step. -/
def Equalizer.IdleOf (d e : Equalizer) : Prop :=
  ∃ bs, List.Forall₂ Band.IdleOf bs e.bands ∧ d = { e with bands := bs }

/-- A cell after a LOAD of `k`, written out (R66). -/
def Cell.loaded (k : Coeffs) (c : Cell) : Cell :=
  { c with a0 := k.a0, a1 := k.a1, a2 := k.a2, b1 := k.b1, b2 := k.b2, valid := false }

/-- A cell after a RESET, written out (R68). -/
def Cell.cleared (c : Cell) : Cell :=
  { c with x1 := 0x00000000#32, x2 := 0x00000000#32, y1 := 0x00000000#32, y2 := 0x00000000#32, valid := false }

/-- A band after one LOAD of `k` to every cell (R102). -/
def Band.loadedWith (k : Coeffs) (b : Band) : Band := { b with cells := b.cells.map (Cell.loaded k) }

/-- Between `s` and `t` only the band and the count of draws differ. That the cells of the other systems keep their `valid` is
a DESIGN CHOICE, unsafe: log entry 2. -/
def State.OnlyBandDiffers (s t : State) : Prop := t = { s with band := t.band, draws := t.draws }

/-- Between `s` and `t` only the cascade and the count of draws differ. That the cells of the other systems keep their `valid`
is a DESIGN CHOICE, unsafe: log entry 2. -/
def State.OnlyEqualizerDiffers (s t : State) : Prop := t = { s with equalizer := t.equalizer, draws := t.draws }

/-! ## Runs of commands -/

/-- The coefficient set of the last LOAD of a run, if there is one (R39). -/
def lastLoad : List Instr → Option Coeffs
  | [] => none
  | .load a0 a1 a2 b1 b2 :: is => some ((lastLoad is).getD ⟨a0, a1, a2, b1, b2⟩)
  | .nop :: is => lastLoad is
  | .process _ :: is => lastLoad is
  | .reset :: is => lastLoad is

/-- A run of commands on the cell, one a step (R38). -/
def execAll : List Instr → State → Host.Outcome State Fault Refusal
  | [], s => .next s
  | i :: is, s =>
    match exec i s with
    | .next t => execAll is t
    | .fault r => .fault r
    | .refused r => .refused r

end Sys2Proof.Machine
end

