-- ==== Sys2Proof/Certificates/Slice0/Obligations.lean ====
section
/-! DEFINITION. What the provers are asked to prove of the model. Each docstring names the rule of the spec it formalises, or
says that it is the model's own. Where a statement says of all of State what is left as it was, that the cells of the systems
the event is not about keep their `valid` is the model's own choice, log entry 2. -/

open Sys2Proof Sys2Proof.Machine

/-! ## The command format -/

/-- Words written out from R45 and R46 decode to the commands they stand for; the PROCESS, the first LOAD and the second
are those of programs P-A, P-C and P-B of 95_test_vectors.md, in the listing form of R55. -/
def Obligations.SpecWordsDecode : Prop :=
  decode 0x0#194 = .nop ∧
  decode 0xff000001#194 = .process 0x3FC00000#32 ∧
  decode 0x2fe0000000000000000000000fe00000000000002#194 =
    .load 0x3F800000#32 0#32 0#32 0xBF800000#32 0#32 ∧
  decode 0xfda8d322ffcc0658ee18cdd8f018cdd8ee18cdd800000002#194 =
    .load 0x3B863376#32 0x3C063376#32 0x3B863376#32 0xBFF30196#32 0x3F6A34C8#32 ∧
  decode 0x3#194 = .reset

/-- Decoding an encoded command gives it back, with every operand, also in the opcode table's numbering (R45 to R48). -/
def Obligations.DecodeEncodeRoundTrip : Prop :=
  ∀ i : Instr, decode (encode i) = i ∧ decodeTableWord 194 (encode i).toNat = some i ∧ (Port.ofCmd (encode i)).cmd = encode i

/-- Encoding a decoded command gives the word back with the buses the command does not use at 0 (R45, R49, R50, R55). That a
number with a bit above bit 193 is no command, and the name of that error, is the model's own choice, log entry 14. -/
def Obligations.EncodeDecodeKeepsUsedBuses : Prop :=
  (∀ w : Cmd, encode (decode w) =
    assembleCmd (opField w) (if opField w = 0b01#2 then dinField w else 0#32)
      (if opField w = 0b10#2 then coefField w else 0#160)) ∧
  ∀ n : Nat, decodeNat n = if n < 2 ^ 194 then .ok (decode (BitVec.ofNat 194 n)) else .error .longerThanCmd

/-- R49: a bus a command does not use has no effect, on what the command is or on what a step that presents it does. -/
def Obligations.UnusedBusesAreIgnored : Prop :=
  ∀ (p q : Port), p.init = false → q.init = false → p.op = q.op →
    (p.op = 0b01#2 → p.din = q.din) → (p.op = 0b10#2 → p.coef = q.coef) →
    decode p.cmd = decode q.cmd ∧
    ∀ (s : State) (rest : List Input),
      step { s with inputs := .port p :: rest } = step { s with inputs := .port q :: rest }

/-- R48: the five operands of LOAD are the five lanes of `coef`, which are these bits of `cmd`. -/
def Obligations.LoadOperandsAreTheLanes : Prop :=
  ∀ p : Port, p.op = 0b10#2 →
    decode p.cmd = .load (p.coef.extractLsb' 0 32) (p.coef.extractLsb' 32 32) (p.coef.extractLsb' 64 32)
      (p.coef.extractLsb' 96 32) (p.coef.extractLsb' 128 32) ∧
    p.coef.extractLsb' 0 32 = p.cmd.extractLsb' 34 32 ∧ p.coef.extractLsb' 32 32 = p.cmd.extractLsb' 66 32 ∧
    p.coef.extractLsb' 64 32 = p.cmd.extractLsb' 98 32 ∧ p.coef.extractLsb' 96 32 = p.cmd.extractLsb' 130 32 ∧
    p.coef.extractLsb' 128 32 = p.cmd.extractLsb' 162 32

/-- R47: the operand of PROCESS is `din`, which is `cmd[33:2]`, unconverted. -/
def Obligations.ProcessOperandIsDin : Prop :=
  ∀ p : Port, p.op = 0b01#2 → decode p.cmd = .process p.din ∧ p.din = p.cmd.extractLsb' 2 32

/-- The codes of the filter types; 6 and 7 name none, and the operations that carry one are refused (R74). That they are
refused also before `init` and with a band index out of range, where R101 and R105 ignore a setter, and before the counts are
looked at, is the model's own choice, log entry 9. -/
def Obligations.FilterTypeCodes : Prop :=
  FilterType.ofCode 0#3 = some .lowpass ∧ FilterType.ofCode 1#3 = some .highpass ∧
  FilterType.ofCode 2#3 = some .bandpass ∧ FilterType.ofCode 3#3 = some .notch ∧
  FilterType.ofCode 4#3 = some .parametricEQ ∧ FilterType.ofCode 5#3 = some .allPass ∧
  ∀ code : BitVec 3, 6 ≤ code.toNat → ∀ (s : State) (sr f bw g : Binary64) (n : Nat) (k : Int),
    stepBand (.init sr n code f bw g) s = .refused .unknownFilterType ∧
    stepBand (.setParams code f bw g) s = .refused .unknownFilterType ∧
    stepBand (.setType code) s = .refused .unknownFilterType ∧
    stepEqualizer (.setBandParams k code f bw g) s = .refused .unknownFilterType

/-! ## Steps -/

/-- A step performs exactly the next of what the environment presents: the decoded command when `init = 0`, or one whole
operation of the band or of the cascade (R38, R44, R61, R107). That what is presented is the head of `inputs` is the model's
own choice, log entry 6; that a whole operation is one step is deduced, log entry 12. -/
def Obligations.StepRunsPresentedInput : Prop :=
  ∀ (s : State) (rest : List Input),
    (∀ p : Port, p.init = false → s.inputs = .port p :: rest → step s = exec (decode p.cmd) { s with inputs := rest }) ∧
    (∀ op : BandOp, s.inputs = .band op :: rest → step s = stepBand op { s with inputs := rest }) ∧
    (∀ op : EqualizerOp, s.inputs = .equalizer op :: rest → step s = stepEqualizer op { s with inputs := rest })

/-- A word of the opcode table's numbering that decodes to `i`, given to `withFetchWord`, is run by the very next step
(R26, R45; log entry 6). -/
def Obligations.FetchedWordRunsNext : Prop :=
  ∀ (s : State) (nbits w : Nat) (i : Instr), decodeTableWord nbits w = some i →
    step (s.withFetchWord nbits w) = exec i s

/-- R114: with `init = 1` the step performs INIT only, and the command on the other ports has no effect. The values are
those of R124. The list `inputs` and the flag `initialised` are the model's own, log entries 5 and 6; that the band and the
cascade are as before is log entry 2's choice. -/
def Obligations.InitTakesPrecedence : Prop :=
  ∀ (s : State) (op : BitVec 2) (din : BitVec 32) (coef : BitVec 160) (rest : List Input),
    step { s with inputs := .port ⟨true, op, din, coef⟩ :: rest } =
      .next { s with
        inputs := rest, initialised := true,
        cell := { a0 := 0x3F800000#32, a1 := 0x00000000#32, a2 := 0x00000000#32, b1 := 0x00000000#32,
                  b2 := 0x00000000#32, x1 := 0x00000000#32, x2 := 0x00000000#32, y1 := 0x00000000#32,
                  y2 := 0x00000000#32, valid := false } }

/-- A step in which the environment presents nothing is a NOP (R62; log entry 6). That the NOP is one of the cell behind the
ports, and that the cells of the band and of the cascade take no step, is the model's own choice, log entry 2. -/
def Obligations.IdleStepIsNop : Prop := ∀ s : State, s.inputs = [] → step s = exec .nop s

/-- R31: the launch state is the one INIT produces, and before the first INIT, whatever the registers hold, every command
is refused. -/
def Obligations.LaunchStateAndNoCommandBeforeInit : Prop :=
  State.reset.initialised = true ∧
  State.reset.cell = { a0 := 0x3F800000#32, a1 := 0#32, a2 := 0#32, b1 := 0#32, b2 := 0#32, x1 := 0#32, x2 := 0#32,
                       y1 := 0#32, y2 := 0#32, valid := false } ∧
  (∀ s : State, s.initCell.cell = State.reset.cell ∧ s.initCell.initialised = true) ∧
  ∀ (s : State) (i : Instr), s.initialised = false → exec i s = .refused .commandBeforeInit

/-- R50: every command word completes, and every pattern is a legal operand. -/
def Obligations.EveryCommandCompletes : Prop :=
  (∀ (w : Cmd) (s : State), s.initialised = true → ∃ t, exec (decode w) s = .next t ∧ t.initialised = true) ∧
  (∀ x : Word, ∃ w : Cmd, decode w = .process x) ∧
  (∀ a0 a1 a2 b1 b2 : Word, ∃ w : Cmd, decode w = .load a0 a1 a2 b1 b2) ∧
  ∀ (s : State) (r : Fault), step s ≠ .fault r

/-! ## The four commands -/

/-- R62: NOP completes and changes `valid` only, and any number of NOPs before a command changes nothing the command
does. That the band and the cascade are as before is the model's own choice, log entry 2, and that NOP takes no draw is log
entry 1's. -/
def Obligations.NopEffect : Prop :=
  ∀ s : State, s.initialised = true →
    exec .nop s = .next { s with cell := { s.cell with valid := false } } ∧
    ∀ (k : Nat) (i : Instr), execAll (List.replicate k .nop ++ [i]) s = exec i s

/-- R63, with the recurrence of R59 and the clamp of R60: PROCESS completes, for every operand, with these values; all
else is as before, of the band and the cascade by the model's own choice, log entry 2. The numbering of the nine draws is the
model's own choice, log entry 1. -/
def Obligations.ProcessEffect : Prop :=
  ∀ (s : State) (sample : Word), s.initialised = true →
    let c := s.cell
    let n := s.draws
    let t0 := fmul (drawnNaN n) c.a0 sample
    let t1 := fmul (drawnNaN (n + 1)) c.a1 c.x1
    let t2 := fmul (drawnNaN (n + 2)) c.a2 c.x2
    let t3 := fmul (drawnNaN (n + 3)) c.b1 c.y1
    let t4 := fmul (drawnNaN (n + 4)) c.b2 c.y2
    let s1 := fadd (drawnNaN (n + 5)) t0 t1
    let s2 := fadd (drawnNaN (n + 6)) s1 t2
    let s3 := fsub (drawnNaN (n + 7)) s2 t3
    let acc := fsub (drawnNaN (n + 8)) s3 t4
    let output := if isSubnormal acc then 0x00000000#32 else acc
    exec (.process sample) s =
      .next { s with cell := { c with x1 := sample, x2 := c.x1, y1 := output, y2 := c.y1, valid := true },
                     draws := n + 9 }

/-- R66: LOAD completes, for every operand, and writes the five coefficient registers and `valid` only. That the
band and the cascade are as before is the model's own choice, log entry 2, and that LOAD takes no draw is log entry 1's. -/
def Obligations.LoadEffect : Prop :=
  ∀ (s : State) (p : Port), s.initialised = true → p.op = 0b10#2 →
    exec (decode p.cmd) s =
      .next { s with cell := { s.cell with
        a0 := p.coef.extractLsb' 0 32, a1 := p.coef.extractLsb' 32 32, a2 := p.coef.extractLsb' 64 32,
        b1 := p.coef.extractLsb' 96 32, b2 := p.coef.extractLsb' 128 32, valid := false } }

/-- R68: RESET completes, writes `+0` to the four state registers and clears `valid`, and leaves the coefficients. That the
band and the cascade are as before is the model's own choice, log entry 2, and that RESET takes no draw is log entry 1's. -/
def Obligations.ResetEffect : Prop :=
  ∀ s : State, s.initialised = true →
    exec .reset s =
      .next { s with cell := { s.cell with x1 := 0x00000000#32, x2 := 0x00000000#32, y1 := 0x00000000#32,
                                           y2 := 0x00000000#32, valid := false } }

/-- What follows a RESET is what follows an INIT and a LOAD of the same coefficients (an inference the spec marks as its own
under R68: "after RESET the cell's future outputs for a given input sequence equal those of a freshly initialised cell that
received the same LOAD"). Both runs take the same NaN draws (log entry 1). -/
def Obligations.ResetRunsAsFreshCell : Prop :=
  ∀ (s : State) (is : List Instr), s.initialised = true →
    execAll (.reset :: is) s =
      execAll (.load s.cell.a0 s.cell.a1 s.cell.a2 s.cell.b1 s.cell.b2 :: is) s.initCell

/-- R125: INIT and RESET differ only in the coefficient registers, and both leave `dout = +0`. That the rest of State is the
same after both is the model's own choice, log entries 1, 2 and 5. -/
def Obligations.InitAndResetDifferInCoefficients : Prop :=
  ∀ s t : State, exec .reset s = .next t →
    t = { s.initCell with cell := { s.initCell.cell with a0 := s.cell.a0, a1 := s.cell.a1, a2 := s.cell.a2,
                                                         b1 := s.cell.b1, b2 := s.cell.b2 } } ∧
    t.cell.dout = 0x00000000#32 ∧ s.initCell.cell.dout = 0x00000000#32

/-- R16: only LOAD and INIT write the coefficient registers, and each writes all five. -/
def Obligations.OnlyLoadWritesCoefficients : Prop :=
  ∀ (i : Instr) (s t : State), exec i s = .next t →
    ((∀ a0 a1 a2 b1 b2, i ≠ .load a0 a1 a2 b1 b2) → t.cell.coeffs = s.cell.coeffs) ∧
    (∀ a0 a1 a2 b1 b2, i = .load a0 a1 a2 b1 b2 → t.cell.coeffs = ⟨a0, a1, a2, b1, b2⟩) ∧
    s.initCell.cell.coeffs = ⟨0x3F800000#32, 0#32, 0#32, 0#32, 0#32⟩

/-- R39: in a run of commands, a PROCESS uses exactly the coefficients of the last LOAD before it, or those the run began
with where there was none. The numbering of draws is the model's own choice, log entry 1. -/
def Obligations.ProcessUsesLastLoad : Prop :=
  ∀ (is : List Instr) (x : Word) (s : State), s.initialised = true →
    ∃ t u, execAll is s = .next t ∧ execAll (is ++ [.process x]) s = .next u ∧
      let k := (lastLoad is).getD s.cell.coeffs
      t.cell.coeffs = k ∧ u.cell.coeffs = k ∧
      u.cell.y1 = clamp (recurrence t.draws x
        { t.cell with a0 := k.a0, a1 := k.a1, a2 := k.a2, b1 := k.b1, b2 := k.b2 })

/-- Two samples in a row fill the delay line: the last two inputs bit for bit, and the last two outputs (R19, R20, R21,
R29), each the clamped recurrence (R59, R60). The numbering of draws is the model's own choice, log entry 1. -/
def Obligations.TwoSamplesFillTheDelayLine : Prop :=
  ∀ (s : State) (a b : Word), s.initialised = true →
    ∃ t u, execAll [.process a] s = .next t ∧ execAll [.process a, .process b] s = .next u ∧
      u.cell.x1 = b ∧ u.cell.x2 = a ∧ u.cell.y2 = t.cell.dout ∧ u.cell.y1 = u.cell.dout ∧
      u.cell.dout = clamp (recurrence t.draws b t.cell) ∧ t.cell.dout = clamp (recurrence s.draws a s.cell) ∧
      t.cell.x2 = s.cell.x1 ∧ t.cell.y2 = s.cell.y1

/-- R23 and R24: `dout` shows `y1` always, and changes with PROCESS, RESET and INIT only; `dout_valid` is 1 after PROCESS
and 0 after every other command and after INIT; no command reads the flag. The numbering of draws is the model's own choice, log
entry 1. -/
def Obligations.OutputPortsFollowCommands : Prop :=
  (∀ (i : Instr) (s t : State), exec i s = .next t →
    t.cell.dout = t.cell.y1 ∧ (t.cell.doutValid = true ↔ ∃ x, i = .process x) ∧
    (i = .nop → t.cell.dout = s.cell.dout) ∧
    (∀ a0 a1 a2 b1 b2, i = .load a0 a1 a2 b1 b2 → t.cell.dout = s.cell.dout) ∧
    (i = .reset → t.cell.dout = 0x00000000#32) ∧
    (∀ x, i = .process x → t.cell.dout = clamp (recurrence s.draws x s.cell))) ∧
  (∀ s : State, s.initCell.cell.dout = 0x00000000#32 ∧ s.initCell.cell.doutValid = false) ∧
  ∀ (i : Instr) (s : State) (v : Bool), exec i { s with cell := { s.cell with valid := v } } = exec i s

/-- No PROCESS presents a subnormal output, in any state and for any sample (R60, R30); any other result of the recurrence
(R59) is the output. The numbering of draws is the model's own choice, log entry 1. -/
def Obligations.NoOutputIsSubnormal : Prop :=
  ∀ (s : State) (x : Word), s.initialised = true →
    ∃ t, exec (.process x) s = .next t ∧ isSubnormal t.cell.dout = false ∧
      (isSubnormal (recurrence s.draws x s.cell) = true → t.cell.dout = 0x00000000#32) ∧
      (isSubnormal (recurrence s.draws x s.cell) = false → t.cell.dout = recurrence s.draws x s.cell)

/-! ## The arithmetic of the datapath -/

/-- A finite product is the binary32 nearest to the exact product, ties to the even significand (R57, finite operands).
Products are in units of 2^-298. -/
def Obligations.MulRoundsToNearestEven : Prop :=
  ∀ nan p q : Word, isFinite p = true → isFinite q = true → isFinite (fmul nan p q) = true →
    IsNearestEven (quanta p * quanta q) (2 ^ 149) (fmul nan p q)

/-- A finite sum, and a finite difference, is the binary32 nearest to the exact one, ties to the even significand (R57,
finite operands). -/
def Obligations.AddRoundsToNearestEven : Prop :=
  ∀ nan p q : Word, isFinite p = true → isFinite q = true →
    (isFinite (fadd nan p q) = true → IsNearestEven (quanta p + quanta q) 1 (fadd nan p q)) ∧
    (isFinite (fsub nan p q) = true → IsNearestEven (quanta p - quanta q) 1 (fsub nan p q))

/-- With finite operands a result is an infinity exactly when the rounded magnitude would be 2^128 or more, that is when
the exact magnitude is at least 2^128 - 2^103 = 33554431 · 2^103, and then it has the exact result's sign; otherwise it is finite (R57). -/
def Obligations.OverflowGivesInfinity : Prop :=
  ∀ nan p q : Word, isFinite p = true → isFinite q = true →
    (isFinite (fmul nan p q) = true ↔ |quanta p * quanta q| < 33554431 * 2 ^ 252 * 2 ^ 149) ∧
    (isFinite (fadd nan p q) = true ↔ |quanta p + quanta q| < 33554431 * 2 ^ 252) ∧
    (33554431 * 2 ^ 252 * 2 ^ 149 ≤ |quanta p * quanta q| →
      fmul nan p q = if quanta p * quanta q < 0 then 0xFF800000#32 else 0x7F800000#32) ∧
    (33554431 * 2 ^ 252 ≤ |quanta p + quanta q| →
      fadd nan p q = if quanta p + quanta q < 0 then 0xFF800000#32 else 0x7F800000#32)

/-- The signs of results (R57, signs): the exclusive-or for a product that is no NaN; an exact zero sum is `+0` unless both
operands are `-0`; a subtraction is an addition with the sign bit inverted. -/
def Obligations.SignsOfResults : Prop :=
  (∀ nan p q : Word, isNaN p = false → isNaN q = false → ¬(isZero p = true ∧ isInf q = true) →
    ¬(isInf p = true ∧ isZero q = true) → signField (fmul nan p q) = (signField p ^^ signField q)) ∧
  (∀ nan p q : Word, isFinite p = true → isFinite q = true → quanta p + quanta q = 0 →
    fadd nan p q = if p = 0x80000000#32 ∧ q = 0x80000000#32 then 0x80000000#32 else 0x00000000#32) ∧
  (∀ nan p q : Word, isFinite p = true → isFinite q = true → quanta p + quanta q ≠ 0 →
    (signField (fadd nan p q) = true ↔ quanta p + quanta q < 0)) ∧
  ∀ nan p q : Word, isNaN q = false → fsub nan p q = fadd nan p (q ^^^ 0x80000000#32)

/-- The rules for infinities (R57, infinities); `nan` stands for the NaN an invalid operation returns. -/
def Obligations.InfinityRules : Prop :=
  ∀ nan p q : Word,
    (isZero p = true → isInf q = true → fmul nan p q = nan ∧ fmul nan q p = nan) ∧
    (isInf p = true → isFinite q = true → isZero q = false →
      isInf (fmul nan p q) = true ∧ isInf (fmul nan q p) = true) ∧
    (isInf p = true → isInf q = true → isInf (fmul nan p q) = true) ∧
    (isInf p = true → isInf q = true → signField p ≠ signField q → fadd nan p q = nan) ∧
    (isInf p = true → isInf q = true → signField p = signField q → fadd nan p q = p) ∧
    (isInf p = true → isFinite q = true → fadd nan p q = p ∧ fadd nan q p = p)

/-- R58: a NaN operand gives a NaN; every NaN an operation returns is quiet; and the draw may be any quiet NaN. -/
def Obligations.NaNResultsAreQuiet : Prop :=
  (∀ (n : Nat) (p q : Word), isNaN p = true ∨ isNaN q = true →
    isNaN (fmul (drawnNaN n) p q) = true ∧ isNaN (fadd (drawnNaN n) p q) = true ∧
    isNaN (fsub (drawnNaN n) p q) = true) ∧
  (∀ (n : Nat) (p q : Word),
    (isNaN (fmul (drawnNaN n) p q) = true → isQuietNaN (fmul (drawnNaN n) p q) = true) ∧
    (isNaN (fadd (drawnNaN n) p q) = true → isQuietNaN (fadd (drawnNaN n) p q) = true) ∧
    (isNaN (fsub (drawnNaN n) p q) = true → isQuietNaN (fsub (drawnNaN n) p q) = true)) ∧
  ∀ v : Word, isQuietNaN v = true ↔ ∃ d : BitVec 23, quietNaN d = v

/-! ## Corner cases of PROCESS -/

/-- With `+0` history and finite coefficients and sample, the output is the clamped product `a0 · sample` where that product
is not a zero, and a zero where it is (R64 items 1 and 2). -/
def Obligations.ZeroHistoryOutput : Prop :=
  ∀ (s : State) (x : Word), s.initialised = true →
    s.cell.x1 = 0#32 → s.cell.x2 = 0#32 → s.cell.y1 = 0#32 → s.cell.y2 = 0#32 →
    isFinite s.cell.a0 = true → isFinite s.cell.a1 = true → isFinite s.cell.a2 = true →
    isFinite s.cell.b1 = true → isFinite s.cell.b2 = true → isFinite x = true →
    ∃ t, exec (.process x) s = .next t ∧
      (isZero (fmul (drawnNaN s.draws) s.cell.a0 x) = false →
        t.cell.dout = clamp (fmul (drawnNaN s.draws) s.cell.a0 x)) ∧
      (isZero (fmul (drawnNaN s.draws) s.cell.a0 x) = true → isZero t.cell.dout = true) ∧
      (x = 0x3F800000#32 → isNormal s.cell.a0 = true → t.cell.dout = s.cell.a0)

/-- A non-finite sample, coefficient or state register makes the output non-finite; a NaN in `y1` or `y2` makes it a NaN
(R64 items 7 and 8). -/
def Obligations.NonFiniteAbsorption : Prop :=
  ∀ (s : State) (x : Word), s.initialised = true →
    ∃ t, exec (.process x) s = .next t ∧
      (isFinite x = false ∨ isFinite s.cell.a0 = false ∨ isFinite s.cell.a1 = false ∨ isFinite s.cell.a2 = false ∨
        isFinite s.cell.b1 = false ∨ isFinite s.cell.b2 = false ∨ isFinite s.cell.x1 = false ∨
        isFinite s.cell.x2 = false ∨ isFinite s.cell.y1 = false ∨ isFinite s.cell.y2 = false →
        isFinite t.cell.dout = false) ∧
      (isNaN s.cell.y1 = true ∨ isNaN s.cell.y2 = true → isNaN t.cell.dout = true)

/-- A non-finite `y1` stays non-finite, and a NaN in `y1` stays a NaN, through every run of commands without a RESET
(R64 items 7 and 8, R133). -/
def Obligations.NonFiniteOutputPersists : Prop :=
  ∀ (is : List Instr) (s : State), s.initialised = true → .reset ∉ is →
    ∃ t, execAll is s = .next t ∧
      (isFinite s.cell.y1 = false → isFinite t.cell.dout = false) ∧
      (isNaN s.cell.y1 = true → isNaN t.cell.dout = true)

/-- Identity coefficients and finite history (R127 and item 10 of R64, inferences the spec marks as its own) pass a normal
sample bit for bit; a subnormal one becomes `+0`, `-0` becomes `+0` when the history is `+0`, and an infinity or a NaN gives
that infinity or a NaN, and a NaN one step later. -/
def Obligations.IdentityCellPassesNormalSamples : Prop :=
  ∀ (s : State) (x : Word), s.initialised = true → s.cell.coeffs = ⟨0x3F800000#32, 0#32, 0#32, 0#32, 0#32⟩ →
    isFinite s.cell.x1 = true → isFinite s.cell.x2 = true → isFinite s.cell.y1 = true → isFinite s.cell.y2 = true →
    ∃ t, exec (.process x) s = .next t ∧
      (isNormal x = true → t.cell.dout = x) ∧
      (isSubnormal x = true → t.cell.dout = 0x00000000#32) ∧
      (x = 0x80000000#32 → s.cell.x1 = 0#32 → s.cell.x2 = 0#32 → s.cell.y1 = 0#32 → s.cell.y2 = 0#32 →
        t.cell.dout = 0x00000000#32) ∧
      (isInf x = true → t.cell.dout = x) ∧ (isNaN x = true → isNaN t.cell.dout = true) ∧
      (isFinite x = false → isFinite t.cell.dout = false ∧
        ∀ z : Word, ∃ u, exec (.process z) t = .next u ∧ isNaN u.cell.dout = true)

/-! ## Invariants -/

/-- The invariant holds of the launch state (R30, R31). -/
def Obligations.InvariantHoldsAtReset : Prop := State.reset.Inv

/-- Every step keeps the invariant: clamped outputs in every cell (R30), one cell for each channel and identical
coefficients in a band (R89, R90), the frequency floor (R97), the counts and the shared parameters of the cascade (R103,
R108). -/
def Obligations.StepKeepsInvariant : Prop := ∀ s t : State, s.Inv → step s = .next t → t.Inv

/-- An event of one of the three systems changes nothing of the other two; cells share no state (R121). That the machine
holds one system of each level, side by side, is the model's own (log entry 6), and so is that the cells of the other two
systems see no NOP meanwhile, which would clear their `valid` (log entry 2), and the count of draws (log entry 1). -/
def Obligations.SystemsDoNotInterfere : Prop :=
  ∀ s t : State,
    (∀ p : Port, stepPort p s = .next t →
      t = { s with cell := t.cell, initialised := t.initialised, draws := t.draws }) ∧
    (∀ op : BandOp, stepBand op s = .next t →
      t = { s with band := t.band, outSamples := t.outSamples, draws := t.draws }) ∧
    (∀ op : EqualizerOp, stepEqualizer op s = .next t →
      t = { s with equalizer := t.equalizer, outSamples := t.outSamples, draws := t.draws })

/-! ## The coefficient engine -/

/-- R78 to R83: in exact real arithmetic the six values of each filter type are the source's formulas, and the engine
divides the five by `b0`. -/
def Obligations.EngineFormulas : Prop :=
  ∀ (A : CoefArith ℝ) (type : FilterType) (f sr bw g : Binary64),
    (∀ n, A.nat n = (n : ℝ)) → A.pi = Real.pi → (∀ x y, A.add x y = x + y) → (∀ x y, A.sub x y = x - y) →
    (∀ x y, A.mul x y = x * y) → (∀ x y, A.div x y = x / y) → (∀ x, A.neg x = -x) →
    (∀ x, A.sin x = Real.sin x) → (∀ x, A.cos x = Real.cos x) → (∀ x, A.ln x = Real.log x) →
    (∀ x, A.pow10 x = (10 : ℝ) ^ x) →
    let u := unnormalised type f sr bw g
    let ω := 2 * Real.pi * A.input f / A.input sr
    let sn := Real.sin ω
    let cs := Real.cos ω
    let α := sn * Real.sin (Real.log 2 / 2 * A.input bw * ω / sn)
    let amp := (10 : ℝ) ^ (A.input g / 40)
    let values : ℝ × ℝ × ℝ × ℝ × ℝ × ℝ := (evalWith A u.a0, evalWith A u.a1, evalWith A u.a2, evalWith A u.b0, evalWith A u.b1, evalWith A u.b2)
    (type = .lowpass → values = ((1 - cs) / 2, 1 - cs, (1 - cs) / 2, 1 + α, -2 * cs, 1 - α)) ∧
    (type = .highpass → values = ((1 + cs) / 2, -(1 + cs), (1 + cs) / 2, 1 + α, -2 * cs, 1 - α)) ∧
    (type = .bandpass → values = (α, 0, -α, 1 + α, -2 * cs, 1 - α)) ∧
    (type = .notch → values = (1, -2 * cs, 1, 1 + α, -2 * cs, 1 - α)) ∧
    (type = .parametricEQ → values = (1 + α * amp, -2 * cs, 1 - α * amp, 1 + α / amp, -2 * cs, 1 - α / amp)) ∧
    (type = .allPass → values = (1 - α, -2 * cs, 1 + α, 1 + α, -2 * cs, 1 - α)) ∧
    coeffsWith (roundedWith A) type f sr bw g =
      ⟨A.toBinary32 (evalWith A u.a0 / evalWith A u.b0), A.toBinary32 (evalWith A u.a1 / evalWith A u.b0),
       A.toBinary32 (evalWith A u.a2 / evalWith A u.b0), A.toBinary32 (evalWith A u.b1 / evalWith A u.b0),
       A.toBinary32 (evalWith A u.b2 / evalWith A u.b0)⟩

/-- R84: the gain is inert for the five types other than ParametricEQ, in the machine's engine and under every
`COEF_ARITH`. -/
def Obligations.GainIsInertForOtherTypes : Prop :=
  ∀ (E : FilterType → Normalised → Coeffs) (type : FilterType) (f sr bw g h : Binary64), type ≠ .parametricEQ →
    coeffs type f sr bw g = coeffs type f sr bw h ∧ coeffsWith E type f sr bw g = coeffsWith E type f sr bw h

/-- ParametricEQ at 0 dB: the coefficients collapse to unity, under every arithmetic in which 10^0 = 1, α·1 = α/1 = α for
this α, and the unnormalised `b0` divided by itself rounds to `1.0` (R86, R87). So what the machine's engine fixes at 0 dB
(log entry 3) takes no such arithmetic away. -/
def Obligations.ParametricUnityAtZeroGain : Prop :=
  ∀ (α : Type) (A : CoefArith α) (f sr bw : Binary64),
    let al := evalWith A (alpha f sr bw)
    let b0 := evalWith A (unnormalised .parametricEQ f sr bw 0#64).b0
    A.pow10 (A.div (A.input 0#64) (A.nat 40)) = A.nat 1 → A.mul al (A.nat 1) = al → A.div al (A.nat 1) = al →
    A.toBinary32 (A.div b0 b0) = 0x3F800000#32 →
    let k := coeffsWith (roundedWith A) .parametricEQ f sr bw 0#64
    k.a0 = 0x3F800000#32 ∧ k.a1 = k.b1 ∧ k.a2 = k.b2 ∧ unitySet true k = k

/-- The machine's engine has R87's property: at 0 dB, written as either zero, the five coefficients of ParametricEQ have
`a1 = b1` and `a2 = b2` bit for bit, and `a0` is `1.0` where `b0` is finite and not zero. That R87's conditions hold of the
open `COEF_ARITH` is deduced, log entry 3; at every other gain, and of every other type, all five patterns are open. -/
def Obligations.MachineEngineUnityAtZeroGain : Prop :=
  ∀ f sr bw g : Binary64, eq64 g 0#64 = true →
    let k := coeffs .parametricEQ f sr bw g
    k.a1 = k.b1 ∧ k.a2 = k.b2 ∧
      (Config.b0FiniteNonzero (unnormalised .parametricEQ f sr bw g) = true → k.a0 = 0x3F800000#32)

/-- A finite nonzero binary64 divided by itself is exactly 1, so `b0` after normalisation is 1 (R86). -/
def Obligations.DivisionBySelfIsOne : Prop :=
  ∀ nan v : Binary64, eq64 v v = true → eq64 v 0#64 = false → (∀ s, datum binary64 v.toNat ≠ .inf s) →
    div64 nan v v = 0x3FF0000000000000#64

/-- Under the default `COEF_ARITH`, with a library whose sine keeps zeros and whose sine and cosine of a NaN or of an
infinity are NaNs, a frequency of 0 Hz or a sample rate of 0 makes all five coefficients NaNs (R88, first two rows). -/
def Obligations.DegenerateParametersGiveNaN : Prop :=
  ∀ (L : HostLibrary) (type : FilterType) (f sr bw g : Binary64),
    (∀ v, eq64 v 0#64 = true → eq64 (L.sin v) 0#64 = true) →
    (∀ v, isNaN64 v = true ∨ (∃ s, datum binary64 v.toNat = .inf s) →
      isNaN64 (L.sin v) = true ∧ isNaN64 (L.cos v) = true) →
    eq64 f 0#64 = true ∨ eq64 sr 0#64 = true →
    let k := coeffsWith (roundedWith (defaultArith L)) type f sr bw g
    isNaN k.a0 = true ∧ isNaN k.a1 = true ∧ isNaN k.a2 = true ∧ isNaN k.b1 = true ∧ isNaN k.b2 = true

/-! ## One band -/

/-- R91: `init` stores its parameters with the frequency clamped to 20 Hz, enables the band, and gives every channel a fresh
cell with the derived coefficients, whatever the band was before; its defaults are 20000 Hz, two octaves and 0 dB. That the
cells of the other systems keep their `valid` is the model's own choice, log entry 2; the count of draws is log entry 1's. -/
def Obligations.BandInitEffect : Prop :=
  (∀ (sr : Binary64) (n : Nat) (code : BitVec 3),
    initWithDefaults sr n code = .init sr n code 0x40D3880000000000#64 0x4000000000000000#64 0#64) ∧
  ∀ (s : State) (sr f bw g : Binary64) (n : Nat) (code : BitVec 3) (type : FilterType),
    FilterType.ofCode code = some type → 1 ≤ n → n ≤ 8 →
    ∃ t, stepBand (.init sr n code f bw g) s = .next t ∧ s.OnlyBandDiffers t ∧
      let f' := if le64 f 0x4034000000000000#64 then 0x4034000000000000#64 else f
      let k := coeffs type f' sr bw g
      t.band = { initialised := true, filterType := type, frequencyHz := f', bandwidthOctaves := bw, gainDb := g,
                 enabled := true, sampleRateHz := sr, channelCount := n,
                 cells := List.replicate n
                   { a0 := k.a0, a1 := k.a1, a2 := k.a2, b1 := k.b1, b2 := k.b2, x1 := 0#32, x2 := 0#32,
                     y1 := 0#32, y2 := 0#32, valid := false } }

/-- R92: an enabled band runs each channel's sample through its own cell, as PROCESS does, and returns the outputs; a
disabled one returns the frame bit for bit and leaves its cells' registers alone; up to NOP steps. Those, and that the cells of the other systems keep their `valid`, are the
model's own choice, log entry 2; the numbering of draws is log entry 1's, `outSamples` log entry 6's. -/
def Obligations.BandFrame : Prop :=
  ∀ (s : State) (v : List Word), s.band.initialised = true → v.length = s.band.channelCount →
    s.band.cells.length = s.band.channelCount →
    ∃ t, stepBand (.processFrame v) s = .next t ∧ s.OnlyBandDiffers { t with outSamples := s.outSamples } ∧
      (s.band.enabled = false → t.outSamples = v ∧ t.band.IdleOf s.band) ∧
      (s.band.enabled = true →
        ∃ cs : List Cell, cs.length = v.length ∧ t.band.IdleOf { s.band with cells := cs } ∧
          t.outSamples = cs.map Cell.y1 ∧
          ∀ (i : Nat) (c d : Cell) (x : Word), s.band.cells[i]? = some c → v[i]? = some x → cs[i]? = some d →
            exec (.process x) { s with cell := c, initialised := true, draws := s.draws + 9 * i } =
              .next { s with cell := d, initialised := true, draws := s.draws + 9 * i + 9 })

/-- R93, R96, R98 to R100, and what R97 says is stored and loaded: each operation on an initialised band, with the parameter
it stores and the one LOAD or RESET it gives every cell; a setter whose value does not differ gives none; up to NOP steps.
Those, and that the cells of the other systems keep their `valid`, are the model's own choice, log entry 2; the count of draws
is log entry 1's. That `setFrequency` stores `-0` as `+0` is deduced, log entry 7. -/
def Obligations.BandSetterEffects : Prop :=
  ∀ (s : State), s.band.initialised = true →
    let b := s.band
    (∃ t, stepBand .reset s = .next t ∧ s.OnlyBandDiffers t ∧
      t.band.IdleOf { b with cells := b.cells.map Cell.cleared }) ∧
    (∀ (code : BitVec 3) (type : FilterType), FilterType.ofCode code = some type →
      ∃ t, stepBand (.setType code) s = .next t ∧ s.OnlyBandDiffers t ∧
        t.band.IdleOf (if type = b.filterType then b else
          Band.loadedWith (coeffs type b.frequencyHz b.sampleRateHz b.bandwidthOctaves b.gainDb)
            { b with filterType := type })) ∧
    (∀ f : Binary64,
      ∃ t, stepBand (.setFrequency f) s = .next t ∧ s.OnlyBandDiffers t ∧
        let f' := if le64 f 0#64 then 0#64 else f
        t.band.IdleOf (if eq64 f b.frequencyHz then b else
          Band.loadedWith (coeffs b.filterType f' b.sampleRateHz b.bandwidthOctaves b.gainDb)
            { b with frequencyHz := f' })) ∧
    (∀ bw : Binary64,
      ∃ t, stepBand (.setBandwidth bw) s = .next t ∧ s.OnlyBandDiffers t ∧
        t.band.IdleOf (if eq64 bw b.bandwidthOctaves then b else
          Band.loadedWith (coeffs b.filterType b.frequencyHz b.sampleRateHz bw b.gainDb)
            { b with bandwidthOctaves := bw })) ∧
    (∀ g : Binary64,
      ∃ t, stepBand (.setGainDb g) s = .next t ∧ s.OnlyBandDiffers t ∧
        t.band.IdleOf (if eq64 g b.gainDb then b
          else if b.filterType = .parametricEQ then
            Band.loadedWith (coeffs b.filterType b.frequencyHz b.sampleRateHz b.bandwidthOctaves g) { b with gainDb := g }
          else { b with gainDb := g })) ∧
    (∀ e : Bool,
      ∃ t, stepBand (.setEnabled e) s = .next t ∧ s.OnlyBandDiffers t ∧ t.band.IdleOf { b with enabled := e })

/-- R95: `setParams` stores all four values, the frequency clamped to 20 Hz, and gives one LOAD exactly when a relevant
value differs from the stored one; the gain is relevant only when the incoming type is ParametricEQ; up to NOP steps.
Those, and that the cells of the other systems keep their `valid`, are the model's own choice, log entry 2; the count of draws
is log entry 1's. That all four are stored also where none differs, the frequency clamped, is deduced, log entry 10. -/
def Obligations.SetParamsEffect : Prop :=
  ∀ (s : State) (code : BitVec 3) (type : FilterType) (f bw g : Binary64), s.band.initialised = true →
    FilterType.ofCode code = some type →
    ∃ t, stepBand (.setParams code f bw g) s = .next t ∧ s.OnlyBandDiffers t ∧
      let b := s.band
      let f' := if le64 f 0x4034000000000000#64 then 0x4034000000000000#64 else f
      let stored : Band := { b with filterType := type, frequencyHz := f', bandwidthOctaves := bw, gainDb := g }
      (type = b.filterType ∧ eq64 f b.frequencyHz = true ∧ eq64 bw b.bandwidthOctaves = true ∧
          (type = .parametricEQ → eq64 g b.gainDb = true) → t.band.IdleOf stored) ∧
      (type ≠ b.filterType ∨ eq64 f b.frequencyHz = false ∨ eq64 bw b.bandwidthOctaves = false ∨
          (type = .parametricEQ ∧ eq64 g b.gainDb = false) →
        t.band.IdleOf (stored.loadedWith (coeffs type f' b.sampleRateHz bw g)))

/-- Comparing parameters: a NaN differs from everything, `+0` and `-0` do not differ, and a value that is no NaN does not
differ from itself (R94). -/
def Obligations.ParameterComparison : Prop :=
  (∀ v w : Binary64, isNaN64 v = true → eq64 v w = false ∧ eq64 w v = false) ∧
  eq64 0x0000000000000000#64 0x8000000000000000#64 = true ∧
  (∀ v : Binary64, isNaN64 v = false → eq64 v v = true) ∧
  ∀ v w : Binary64, eq64 v w = true → v = w ∨ (eq64 v 0#64 = true ∧ eq64 w 0#64 = true)

/-- The two frequency floors: after `init` and `setParams` the stored frequency is at least 20 Hz, after a `setFrequency`
that stores it is at least 0 Hz, or it is the NaN it was given (R91, R95, R97; 90_conflicts.md C2; log entry 7). -/
def Obligations.FrequencyFloors : Prop :=
  ∀ (s t : State) (code : BitVec 3) (sr f bw g : Binary64) (n : Nat),
    (stepBand (.init sr n code f bw g) s = .next t →
      le64 0x4034000000000000#64 t.band.frequencyHz = true ∨ (isNaN64 f = true ∧ t.band.frequencyHz = f)) ∧
    (s.band.initialised = true → stepBand (.setParams code f bw g) s = .next t →
      le64 0x4034000000000000#64 t.band.frequencyHz = true ∨ (isNaN64 f = true ∧ t.band.frequencyHz = f)) ∧
    (s.band.initialised = true → eq64 f s.band.frequencyHz = false → stepBand (.setFrequency f) s = .next t →
      le64 0#64 t.band.frequencyHz = true ∨ (isNaN64 f = true ∧ t.band.frequencyHz = f))

/-- R101: on a band that has had no `init`, every setter, `reset` and `setEnabled` is ignored: no parameter changes and no
command; up to NOP steps its cells may see. Those, and that the cells of the other systems keep their `valid`, are the model's
own choice, log entry 2; the count of draws is log entry 1's. -/
def Obligations.UninitialisedBandIgnores : Prop :=
  ∀ (s : State) (op : BandOp), s.band.initialised = false → op.wellFormed = true →
    (∀ sr n code f bw g, op ≠ .init sr n code f bw g) → (∀ v, op ≠ .processFrame v) →
    ∃ t, stepBand op s = .next t ∧ s.OnlyBandDiffers t ∧ t.band.IdleOf s.band

/-! ## The cascade -/

/-- R104: `init` makes `bandCount` bands, each ParametricEQ, 500 Hz, one octave, 0 dB, with a fresh cell for each channel,
whatever the cascade was before; the coefficients have what R87 says of the unity set, as the machine's engine does (log
entry 3). That the cells of the other systems keep their `valid` is the model's own choice, log entry 2; the count of draws is
log entry 1's. -/
def Obligations.EqualizerInitEffect : Prop :=
  ∀ (s : State) (sr : Binary64) (m n : Nat), 1 ≤ m → 1 ≤ n → n ≤ 8 →
    ∃ t, stepEqualizer (.init sr m n) s = .next t ∧ s.OnlyEqualizerDiffers t ∧
      let k := coeffs .parametricEQ 0x407F400000000000#64 sr 0x3FF0000000000000#64 0#64
      k.a1 = k.b1 ∧ k.a2 = k.b2 ∧
      (Config.b0FiniteNonzero (unnormalised .parametricEQ 0x407F400000000000#64 sr 0x3FF0000000000000#64 0#64) = true →
        k.a0 = 0x3F800000#32) ∧
      t.equalizer =
        { initialised := true, bandCount := m, channelCount := n, sampleRateHz := sr,
          bands := List.replicate m
            { initialised := true, filterType := .parametricEQ, frequencyHz := 0x407F400000000000#64,
              bandwidthOctaves := 0x3FF0000000000000#64, gainDb := 0#64, enabled := true, sampleRateHz := sr,
              channelCount := n,
              cells := List.replicate n
                { a0 := k.a0, a1 := k.a1, a2 := k.a2, b1 := k.b1, b2 := k.b2, x1 := 0#32, x2 := 0#32,
                  y1 := 0#32, y2 := 0#32, valid := false } } }

/-- R105: the five index-addressed setters are delegated to the band they name; out of range, or before `init`, nothing
happens; up to NOP steps. Those, and that the cells of the other systems keep their `valid`, are the model's own choice, log
entry 2; the count of draws is log entry 1's. -/
def Obligations.EqualizerSettersDelegate : Prop :=
  ∀ (s : State) (k : Int) (code : BitVec 3) (type : FilterType) (f bw g : Binary64) (en : Bool),
    FilterType.ofCode code = some type →
    ∀ (op : EqualizerOp) (h : Band → Band),
      (op = .setBandEnabled k en ∧ h = Band.setEnabled en) ∨
      (op = .setBandParams k code f bw g ∧ h = Band.setParams type f bw g) ∨
      (op = .setBandFrequency k f ∧ h = Band.setFrequency f) ∨
      (op = .setBandwidth k bw ∧ h = Band.setBandwidth bw) ∨
      (op = .setBandGainDb k g ∧ h = Band.setGainDb g) →
      ∃ t, stepEqualizer op s = .next t ∧ s.OnlyEqualizerDiffers t ∧
        (s.equalizer.initialised = true → 0 ≤ k → k < s.equalizer.bandCount →
          t.equalizer.IdleOf { s.equalizer with bands := s.equalizer.bands.modify k.toNat h }) ∧
        (s.equalizer.initialised = false ∨ k < 0 ∨ (s.equalizer.bandCount : Int) ≤ k →
          t.equalizer.IdleOf s.equalizer)

/-- R106: a cascade frame goes through the bands in index order, each taking the output of the one before; the last output
is returned. `frames` lists what goes into each band and what comes out of the last. Up to NOP steps.
Those, and that the cells of the other systems keep their `valid`, are the model's own choice, log entry 2; the numbering of
draws is log entry 1's, `outSamples` log entry 6's. -/
def Obligations.CascadeFrame : Prop :=
  ∀ (s : State) (v : List Word), s.equalizer.initialised = true → v.length = s.equalizer.channelCount →
    ∃ (t : State) (frames : List (List Word)) (bs : List Band),
      stepEqualizer (.processFrame v) s = .next t ∧ s.OnlyEqualizerDiffers { t with outSamples := s.outSamples } ∧
      frames.length = s.equalizer.bands.length + 1 ∧ frames[0]? = some v ∧
      frames[s.equalizer.bands.length]? = some t.outSamples ∧
      t.equalizer.IdleOf { s.equalizer with bands := bs } ∧ bs.length = s.equalizer.bands.length ∧
      ∀ (i : Nat) (b : Band) (x : List Word), s.equalizer.bands[i]? = some b → frames[i]? = some x →
        let n := s.draws + 9 * ((s.equalizer.bands.take i).map fun d => d.cells.length).sum
        bs[i]? = some (b.processFrame n x).1 ∧ frames[i + 1]? = some (b.processFrame n x).2

/-- With all bands disabled a cascade frame returns what it was given, and no register of any cell changes (R92, R106;
95_test_vectors.md W7); up to NOP steps. Those, and that the cells of the other systems keep their `valid`, are the model's
own choice, log entry 2; the count of draws is log entry 1's, `outSamples` log entry 6's. -/
def Obligations.DisabledCascadeIsIdentity : Prop :=
  ∀ (s : State) (v : List Word), s.equalizer.initialised = true → v.length = s.equalizer.channelCount →
    (∀ b ∈ s.equalizer.bands, b.enabled = false) →
    ∃ t, stepEqualizer (.processFrame v) s = .next t ∧ s.OnlyEqualizerDiffers { t with outSamples := s.outSamples } ∧
      t.outSamples = v ∧ t.equalizer.IdleOf s.equalizer

/-- The operations the model gives no meaning to, and that it refuses (R108). The name each refusal has, and that a cascade
`init` with both counts wrong is refused for the channel count, is the model's own choice, log entry 9. -/
def Obligations.RefusedOperations : Prop :=
  ∀ (s : State) (sr f bw g : Binary64) (m n : Nat) (code : BitVec 3) (v : List Word),
    (code.toNat < 6 → n = 0 ∨ 8 < n → stepBand (.init sr n code f bw g) s = .refused .channelCountOutOfRange) ∧
    (n = 0 ∨ 8 < n → stepEqualizer (.init sr m n) s = .refused .channelCountOutOfRange) ∧
    (1 ≤ n → n ≤ 8 → m < 1 → stepEqualizer (.init sr m n) s = .refused .bandCountOutOfRange) ∧
    (s.equalizer.initialised = false → stepEqualizer (.processFrame v) s = .refused .frameBeforeInit)

/-! ## Notation -/

/-- One line each of programs P-C and P-A of 95_test_vectors.md: the text of R53 gives the command, and the command the
listing of R55; RESET lists as R55 says; `LOADID`, `ZERO` and `IMPULSE 2` expand as R54 says. -/
def Obligations.SpecTextAssembles : Prop :=
  assembleLine "LOAD 1.0, 0, 0, -1.0, 0    ; 2:0:3F800000:0:0:BF800000:0".toList =
    .ok [Port.ofCmd (encode (.load 0x3F800000#32 0#32 0#32 0xBF800000#32 0#32))] ∧
  listing (.load 0x3F800000#32 0#32 0#32 0xBF800000#32 0#32) = "2:0:3F800000:0:0:BF800000:0".toList ∧
  assembleLine "PROCESS 1.5".toList = .ok [Port.ofCmd (encode (.process 0x3FC00000#32))] ∧
  listing (.process 0x3FC00000#32) = "1:3FC00000:0:0:0:0:0".toList ∧
  listing .reset = "3:0:0:0:0:0:0".toList ∧
  assembleLine "LOADID".toList = assembleLine "LOAD 0x3F800000, 0x00000000, 0x00000000, 0x00000000, 0x00000000".toList ∧
  assembleLine "ZERO".toList = assembleLine "PROCESS 0x00000000".toList ∧
  assembleLine "IMPULSE 2".toList =
    .ok (presentAll [.process 0x3F800000#32, .process 0x00000000#32, .process 0x00000000#32])
end

