-- ==== Sys2Proof/Laws/State.lean ====
section
/-! SUPPORT. One lemma for each field and each update: what the update leaves in it. -/

namespace Sys2Proof.Machine

/-! ## One cell -/

@[simp] theorem Cell.setCoeffs_a0 (k : Coeffs) (c : Cell) : (c.setCoeffs k).a0 = k.a0 := rfl
@[simp] theorem Cell.setCoeffs_a1 (k : Coeffs) (c : Cell) : (c.setCoeffs k).a1 = k.a1 := rfl
@[simp] theorem Cell.setCoeffs_a2 (k : Coeffs) (c : Cell) : (c.setCoeffs k).a2 = k.a2 := rfl
@[simp] theorem Cell.setCoeffs_b1 (k : Coeffs) (c : Cell) : (c.setCoeffs k).b1 = k.b1 := rfl
@[simp] theorem Cell.setCoeffs_b2 (k : Coeffs) (c : Cell) : (c.setCoeffs k).b2 = k.b2 := rfl
@[simp] theorem Cell.setCoeffs_x1 (k : Coeffs) (c : Cell) : (c.setCoeffs k).x1 = c.x1 := rfl
@[simp] theorem Cell.setCoeffs_x2 (k : Coeffs) (c : Cell) : (c.setCoeffs k).x2 = c.x2 := rfl
@[simp] theorem Cell.setCoeffs_y1 (k : Coeffs) (c : Cell) : (c.setCoeffs k).y1 = c.y1 := rfl
@[simp] theorem Cell.setCoeffs_y2 (k : Coeffs) (c : Cell) : (c.setCoeffs k).y2 = c.y2 := rfl
@[simp] theorem Cell.setCoeffs_valid (k : Coeffs) (c : Cell) : (c.setCoeffs k).valid = c.valid := rfl

@[simp] theorem Cell.shiftIn_a0 (x y : Word) (c : Cell) : (c.shiftIn x y).a0 = c.a0 := rfl
@[simp] theorem Cell.shiftIn_a1 (x y : Word) (c : Cell) : (c.shiftIn x y).a1 = c.a1 := rfl
@[simp] theorem Cell.shiftIn_a2 (x y : Word) (c : Cell) : (c.shiftIn x y).a2 = c.a2 := rfl
@[simp] theorem Cell.shiftIn_b1 (x y : Word) (c : Cell) : (c.shiftIn x y).b1 = c.b1 := rfl
@[simp] theorem Cell.shiftIn_b2 (x y : Word) (c : Cell) : (c.shiftIn x y).b2 = c.b2 := rfl
@[simp] theorem Cell.shiftIn_x1 (x y : Word) (c : Cell) : (c.shiftIn x y).x1 = x := rfl
@[simp] theorem Cell.shiftIn_x2 (x y : Word) (c : Cell) : (c.shiftIn x y).x2 = c.x1 := rfl
@[simp] theorem Cell.shiftIn_y1 (x y : Word) (c : Cell) : (c.shiftIn x y).y1 = y := rfl
@[simp] theorem Cell.shiftIn_y2 (x y : Word) (c : Cell) : (c.shiftIn x y).y2 = c.y1 := rfl
@[simp] theorem Cell.shiftIn_valid (x y : Word) (c : Cell) : (c.shiftIn x y).valid = c.valid := rfl

@[simp] theorem Cell.zeroHistory_a0 (c : Cell) : (c.zeroHistory).a0 = c.a0 := rfl
@[simp] theorem Cell.zeroHistory_a1 (c : Cell) : (c.zeroHistory).a1 = c.a1 := rfl
@[simp] theorem Cell.zeroHistory_a2 (c : Cell) : (c.zeroHistory).a2 = c.a2 := rfl
@[simp] theorem Cell.zeroHistory_b1 (c : Cell) : (c.zeroHistory).b1 = c.b1 := rfl
@[simp] theorem Cell.zeroHistory_b2 (c : Cell) : (c.zeroHistory).b2 = c.b2 := rfl
@[simp] theorem Cell.zeroHistory_x1 (c : Cell) : (c.zeroHistory).x1 = posZero := rfl
@[simp] theorem Cell.zeroHistory_x2 (c : Cell) : (c.zeroHistory).x2 = posZero := rfl
@[simp] theorem Cell.zeroHistory_y1 (c : Cell) : (c.zeroHistory).y1 = posZero := rfl
@[simp] theorem Cell.zeroHistory_y2 (c : Cell) : (c.zeroHistory).y2 = posZero := rfl
@[simp] theorem Cell.zeroHistory_valid (c : Cell) : (c.zeroHistory).valid = c.valid := rfl

@[simp] theorem Cell.setValid_a0 (v : Bool) (c : Cell) : (c.setValid v).a0 = c.a0 := rfl
@[simp] theorem Cell.setValid_a1 (v : Bool) (c : Cell) : (c.setValid v).a1 = c.a1 := rfl
@[simp] theorem Cell.setValid_a2 (v : Bool) (c : Cell) : (c.setValid v).a2 = c.a2 := rfl
@[simp] theorem Cell.setValid_b1 (v : Bool) (c : Cell) : (c.setValid v).b1 = c.b1 := rfl
@[simp] theorem Cell.setValid_b2 (v : Bool) (c : Cell) : (c.setValid v).b2 = c.b2 := rfl
@[simp] theorem Cell.setValid_x1 (v : Bool) (c : Cell) : (c.setValid v).x1 = c.x1 := rfl
@[simp] theorem Cell.setValid_x2 (v : Bool) (c : Cell) : (c.setValid v).x2 = c.x2 := rfl
@[simp] theorem Cell.setValid_y1 (v : Bool) (c : Cell) : (c.setValid v).y1 = c.y1 := rfl
@[simp] theorem Cell.setValid_y2 (v : Bool) (c : Cell) : (c.setValid v).y2 = c.y2 := rfl
@[simp] theorem Cell.setValid_valid (v : Bool) (c : Cell) : (c.setValid v).valid = v := rfl

@[simp] theorem Cell.nop_a0 (c : Cell) : (c.nop).a0 = c.a0 := rfl
@[simp] theorem Cell.nop_a1 (c : Cell) : (c.nop).a1 = c.a1 := rfl
@[simp] theorem Cell.nop_a2 (c : Cell) : (c.nop).a2 = c.a2 := rfl
@[simp] theorem Cell.nop_b1 (c : Cell) : (c.nop).b1 = c.b1 := rfl
@[simp] theorem Cell.nop_b2 (c : Cell) : (c.nop).b2 = c.b2 := rfl
@[simp] theorem Cell.nop_x1 (c : Cell) : (c.nop).x1 = c.x1 := rfl
@[simp] theorem Cell.nop_x2 (c : Cell) : (c.nop).x2 = c.x2 := rfl
@[simp] theorem Cell.nop_y1 (c : Cell) : (c.nop).y1 = c.y1 := rfl
@[simp] theorem Cell.nop_y2 (c : Cell) : (c.nop).y2 = c.y2 := rfl
@[simp] theorem Cell.nop_valid (c : Cell) : (c.nop).valid = false := rfl

@[simp] theorem Cell.process_a0 (n : Nat) (x : Word) (c : Cell) : (c.process n x).a0 = c.a0 := rfl
@[simp] theorem Cell.process_a1 (n : Nat) (x : Word) (c : Cell) : (c.process n x).a1 = c.a1 := rfl
@[simp] theorem Cell.process_a2 (n : Nat) (x : Word) (c : Cell) : (c.process n x).a2 = c.a2 := rfl
@[simp] theorem Cell.process_b1 (n : Nat) (x : Word) (c : Cell) : (c.process n x).b1 = c.b1 := rfl
@[simp] theorem Cell.process_b2 (n : Nat) (x : Word) (c : Cell) : (c.process n x).b2 = c.b2 := rfl
@[simp] theorem Cell.process_x1 (n : Nat) (x : Word) (c : Cell) : (c.process n x).x1 = x := rfl
@[simp] theorem Cell.process_x2 (n : Nat) (x : Word) (c : Cell) : (c.process n x).x2 = c.x1 := rfl
@[simp] theorem Cell.process_y1 (n : Nat) (x : Word) (c : Cell) : (c.process n x).y1 = clamp (recurrence n x c) := rfl
@[simp] theorem Cell.process_y2 (n : Nat) (x : Word) (c : Cell) : (c.process n x).y2 = c.y1 := rfl
@[simp] theorem Cell.process_valid (n : Nat) (x : Word) (c : Cell) : (c.process n x).valid = true := rfl

@[simp] theorem Cell.load_a0 (k : Coeffs) (c : Cell) : (c.load k).a0 = k.a0 := rfl
@[simp] theorem Cell.load_a1 (k : Coeffs) (c : Cell) : (c.load k).a1 = k.a1 := rfl
@[simp] theorem Cell.load_a2 (k : Coeffs) (c : Cell) : (c.load k).a2 = k.a2 := rfl
@[simp] theorem Cell.load_b1 (k : Coeffs) (c : Cell) : (c.load k).b1 = k.b1 := rfl
@[simp] theorem Cell.load_b2 (k : Coeffs) (c : Cell) : (c.load k).b2 = k.b2 := rfl
@[simp] theorem Cell.load_x1 (k : Coeffs) (c : Cell) : (c.load k).x1 = c.x1 := rfl
@[simp] theorem Cell.load_x2 (k : Coeffs) (c : Cell) : (c.load k).x2 = c.x2 := rfl
@[simp] theorem Cell.load_y1 (k : Coeffs) (c : Cell) : (c.load k).y1 = c.y1 := rfl
@[simp] theorem Cell.load_y2 (k : Coeffs) (c : Cell) : (c.load k).y2 = c.y2 := rfl
@[simp] theorem Cell.load_valid (k : Coeffs) (c : Cell) : (c.load k).valid = false := rfl

@[simp] theorem Cell.reset_a0 (c : Cell) : (c.reset).a0 = c.a0 := rfl
@[simp] theorem Cell.reset_a1 (c : Cell) : (c.reset).a1 = c.a1 := rfl
@[simp] theorem Cell.reset_a2 (c : Cell) : (c.reset).a2 = c.a2 := rfl
@[simp] theorem Cell.reset_b1 (c : Cell) : (c.reset).b1 = c.b1 := rfl
@[simp] theorem Cell.reset_b2 (c : Cell) : (c.reset).b2 = c.b2 := rfl
@[simp] theorem Cell.reset_x1 (c : Cell) : (c.reset).x1 = posZero := rfl
@[simp] theorem Cell.reset_x2 (c : Cell) : (c.reset).x2 = posZero := rfl
@[simp] theorem Cell.reset_y1 (c : Cell) : (c.reset).y1 = posZero := rfl
@[simp] theorem Cell.reset_y2 (c : Cell) : (c.reset).y2 = posZero := rfl
@[simp] theorem Cell.reset_valid (c : Cell) : (c.reset).valid = false := rfl

/-! ## One band -/

@[simp] theorem Band.broadcastLoad_initialised (b : Band) : (b.broadcastLoad).initialised = b.initialised := rfl
@[simp] theorem Band.broadcastLoad_filterType (b : Band) : (b.broadcastLoad).filterType = b.filterType := rfl
@[simp] theorem Band.broadcastLoad_frequencyHz (b : Band) : (b.broadcastLoad).frequencyHz = b.frequencyHz := rfl
@[simp] theorem Band.broadcastLoad_bandwidthOctaves (b : Band) : (b.broadcastLoad).bandwidthOctaves = b.bandwidthOctaves := rfl
@[simp] theorem Band.broadcastLoad_gainDb (b : Band) : (b.broadcastLoad).gainDb = b.gainDb := rfl
@[simp] theorem Band.broadcastLoad_enabled (b : Band) : (b.broadcastLoad).enabled = b.enabled := rfl
@[simp] theorem Band.broadcastLoad_sampleRateHz (b : Band) : (b.broadcastLoad).sampleRateHz = b.sampleRateHz := rfl
@[simp] theorem Band.broadcastLoad_channelCount (b : Band) : (b.broadcastLoad).channelCount = b.channelCount := rfl
@[simp] theorem Band.broadcastLoad_cells (b : Band) : (b.broadcastLoad).cells = b.cells.map (Cell.load b.coeffs) := rfl

@[simp] theorem Band.broadcastReset_initialised (b : Band) : (b.broadcastReset).initialised = b.initialised := rfl
@[simp] theorem Band.broadcastReset_filterType (b : Band) : (b.broadcastReset).filterType = b.filterType := rfl
@[simp] theorem Band.broadcastReset_frequencyHz (b : Band) : (b.broadcastReset).frequencyHz = b.frequencyHz := rfl
@[simp] theorem Band.broadcastReset_bandwidthOctaves (b : Band) : (b.broadcastReset).bandwidthOctaves = b.bandwidthOctaves := rfl
@[simp] theorem Band.broadcastReset_gainDb (b : Band) : (b.broadcastReset).gainDb = b.gainDb := rfl
@[simp] theorem Band.broadcastReset_enabled (b : Band) : (b.broadcastReset).enabled = b.enabled := rfl
@[simp] theorem Band.broadcastReset_sampleRateHz (b : Band) : (b.broadcastReset).sampleRateHz = b.sampleRateHz := rfl
@[simp] theorem Band.broadcastReset_channelCount (b : Band) : (b.broadcastReset).channelCount = b.channelCount := rfl
@[simp] theorem Band.broadcastReset_cells (b : Band) : (b.broadcastReset).cells = b.cells.map Cell.reset := rfl

@[simp] theorem Band.settle_initialised (n : Nat) (b : Band) : (b.settle n).initialised = b.initialised := rfl
@[simp] theorem Band.settle_filterType (n : Nat) (b : Band) : (b.settle n).filterType = b.filterType := rfl
@[simp] theorem Band.settle_frequencyHz (n : Nat) (b : Band) : (b.settle n).frequencyHz = b.frequencyHz := rfl
@[simp] theorem Band.settle_bandwidthOctaves (n : Nat) (b : Band) : (b.settle n).bandwidthOctaves = b.bandwidthOctaves := rfl
@[simp] theorem Band.settle_gainDb (n : Nat) (b : Band) : (b.settle n).gainDb = b.gainDb := rfl
@[simp] theorem Band.settle_enabled (n : Nat) (b : Band) : (b.settle n).enabled = b.enabled := rfl
@[simp] theorem Band.settle_sampleRateHz (n : Nat) (b : Band) : (b.settle n).sampleRateHz = b.sampleRateHz := rfl
@[simp] theorem Band.settle_channelCount (n : Nat) (b : Band) : (b.settle n).channelCount = b.channelCount := rfl
@[simp] theorem Band.settle_cells (n : Nat) (b : Band) : (b.settle n).cells = settleCells n b.cells := rfl

/-! ## The machine -/

@[simp] theorem State.initCell_cell (s : State) : (s.initCell).cell = Cell.fresh := rfl
@[simp] theorem State.initCell_initialised (s : State) : (s.initCell).initialised = true := rfl
@[simp] theorem State.initCell_band (s : State) : (s.initCell).band = s.band := rfl
@[simp] theorem State.initCell_equalizer (s : State) : (s.initCell).equalizer = s.equalizer := rfl
@[simp] theorem State.initCell_outSamples (s : State) : (s.initCell).outSamples = s.outSamples := rfl
@[simp] theorem State.initCell_inputs (s : State) : (s.initCell).inputs = s.inputs := rfl
@[simp] theorem State.initCell_draws (s : State) : (s.initCell).draws = s.draws := rfl

@[simp] theorem State.presentCmd_cell (w : Nat) (s : State) : (s.presentCmd w).cell = s.cell := rfl
@[simp] theorem State.presentCmd_initialised (w : Nat) (s : State) : (s.presentCmd w).initialised = s.initialised := rfl
@[simp] theorem State.presentCmd_band (w : Nat) (s : State) : (s.presentCmd w).band = s.band := rfl
@[simp] theorem State.presentCmd_equalizer (w : Nat) (s : State) : (s.presentCmd w).equalizer = s.equalizer := rfl
@[simp] theorem State.presentCmd_outSamples (w : Nat) (s : State) : (s.presentCmd w).outSamples = s.outSamples := rfl
@[simp] theorem State.presentCmd_inputs (w : Nat) (s : State) : (s.presentCmd w).inputs = .port (Port.ofCmd (BitVec.ofNat 194 w)) :: s.inputs := rfl
@[simp] theorem State.presentCmd_draws (w : Nat) (s : State) : (s.presentCmd w).draws = s.draws := rfl

@[simp] theorem State.putBand_cell (b : Band) (s : State) : (s.putBand b).cell = s.cell := rfl
@[simp] theorem State.putBand_initialised (b : Band) (s : State) : (s.putBand b).initialised = s.initialised := rfl
@[simp] theorem State.putBand_band (b : Band) (s : State) : (s.putBand b).band = b.settle (s.draws + drawsPerProcess * b.cells.length) := rfl
@[simp] theorem State.putBand_equalizer (b : Band) (s : State) : (s.putBand b).equalizer = s.equalizer := rfl
@[simp] theorem State.putBand_outSamples (b : Band) (s : State) : (s.putBand b).outSamples = s.outSamples := rfl
@[simp] theorem State.putBand_inputs (b : Band) (s : State) : (s.putBand b).inputs = s.inputs := rfl
@[simp] theorem State.putBand_draws (b : Band) (s : State) : (s.putBand b).draws = s.draws + drawsPerCell * b.cells.length := rfl

@[simp] theorem State.putEqualizer_cell (e : Equalizer) (s : State) : (s.putEqualizer e).cell = s.cell := rfl
@[simp] theorem State.putEqualizer_initialised (e : Equalizer) (s : State) : (s.putEqualizer e).initialised = s.initialised := rfl
@[simp] theorem State.putEqualizer_band (e : Equalizer) (s : State) : (s.putEqualizer e).band = s.band := rfl
@[simp] theorem State.putEqualizer_equalizer (e : Equalizer) (s : State) : (s.putEqualizer e).equalizer = { e with bands := settleBands (s.draws + drawsPerProcess * e.cellCount) e.bands } := rfl
@[simp] theorem State.putEqualizer_outSamples (e : Equalizer) (s : State) : (s.putEqualizer e).outSamples = s.outSamples := rfl
@[simp] theorem State.putEqualizer_inputs (e : Equalizer) (s : State) : (s.putEqualizer e).inputs = s.inputs := rfl
@[simp] theorem State.putEqualizer_draws (e : Equalizer) (s : State) : (s.putEqualizer e).draws = s.draws + drawsPerCell * e.cellCount := rfl

end Sys2Proof.Machine
end

