-- ==== Sys2Proof/Laws/Ops.lean ====
section
/-! SUPPORT. What each shared operation can do, said once. -/

namespace Sys2Proof.Machine

/-! ## Commands -/

theorem State.command_initialised {used : Nat} {f : Nat → Cell → Cell} {s : State} (h : s.initialised = true) :
    s.command used f = .next { s with cell := f s.draws s.cell, draws := s.draws + used } := by
  simp [State.command, h]

theorem State.command_uninitialised {used : Nat} {f : Nat → Cell → Cell} {s : State} (h : s.initialised = false) :
    s.command used f = .refused .commandBeforeInit := by
  simp [State.command, h]

/-- Everything a command can do when it answers a next state. -/
theorem State.command_next {used : Nat} {f : Nat → Cell → Cell} {s t : State} (h : s.command used f = .next t) :
    s.initialised = true ∧ t = { s with cell := f s.draws s.cell, draws := s.draws + used } := by
  by_cases hi : s.initialised = true
  · rw [State.command_initialised hi] at h
    exact ⟨hi, (Host.Outcome.next.inj h).symm⟩
  · simp [State.command, hi] at h

theorem exec_nop {s : State} (h : s.initialised = true) :
    exec .nop s = .next { s with cell := s.cell.nop } := by
  simp [exec, execNop, State.command, h]

theorem exec_process {s : State} (x : Word) (h : s.initialised = true) :
    exec (.process x) s = .next { s with cell := s.cell.process s.draws x, draws := s.draws + drawsPerProcess } := by
  simp [exec, execProcess, State.command, h]

theorem exec_load {s : State} (a0 a1 a2 b1 b2 : Word) (h : s.initialised = true) :
    exec (.load a0 a1 a2 b1 b2) s = .next { s with cell := s.cell.load ⟨a0, a1, a2, b1, b2⟩ } := by
  simp [exec, execLoad, State.command, h]

theorem exec_reset {s : State} (h : s.initialised = true) :
    exec .reset s = .next { s with cell := s.cell.reset } := by
  simp [exec, execReset, State.command, h]

theorem exec_uninitialised {s : State} (i : Instr) (h : s.initialised = false) :
    exec i s = .refused .commandBeforeInit := by
  cases i <;> simp [exec, execNop, execProcess, execLoad, execReset, State.command, h]

/-- Everything a command of the cell can do: it touches the cell and the count of draws, nothing else. -/
theorem exec_next {i : Instr} {s t : State} (h : exec i s = .next t) :
    s.initialised = true ∧
      (i = .nop ∧ t = { s with cell := s.cell.nop } ∨
       (∃ x, i = .process x ∧
          t = { s with cell := s.cell.process s.draws x, draws := s.draws + drawsPerProcess }) ∨
       (∃ a0 a1 a2 b1 b2, i = .load a0 a1 a2 b1 b2 ∧ t = { s with cell := s.cell.load ⟨a0, a1, a2, b1, b2⟩ }) ∨
       i = .reset ∧ t = { s with cell := s.cell.reset }) := by
  have hi : s.initialised = true := by
    by_contra hn
    rw [exec_uninitialised i (by simpa using hn)] at h
    cases h
  refine ⟨hi, ?_⟩
  cases i with
  | nop => rw [exec_nop hi] at h; exact .inl ⟨rfl, (Host.Outcome.next.inj h).symm⟩
  | process x => rw [exec_process x hi] at h; exact .inr (.inl ⟨x, rfl, (Host.Outcome.next.inj h).symm⟩)
  | load a0 a1 a2 b1 b2 =>
    rw [exec_load a0 a1 a2 b1 b2 hi] at h
    exact .inr (.inr (.inl ⟨a0, a1, a2, b1, b2, rfl, (Host.Outcome.next.inj h).symm⟩))
  | reset => rw [exec_reset hi] at h; exact .inr (.inr (.inr ⟨rfl, (Host.Outcome.next.inj h).symm⟩))

/-! ## The clamp -/

theorem isSubnormal_clamp (acc : Word) : isSubnormal (clamp acc) = false := by
  unfold clamp
  split
  · decide
  · simpa using ‹¬isSubnormal acc = true›

theorem clamp_of_not_subnormal {acc : Word} (h : isSubnormal acc = false) : clamp acc = acc := by simp [clamp, h]

theorem clamp_of_subnormal {acc : Word} (h : isSubnormal acc = true) : clamp acc = posZero := by simp [clamp, h]

/-! ## Every command keeps the outputs clamped -/

theorem Cell.OutputsClamped.fresh : Cell.fresh.OutputsClamped := by simp only [Cell.OutputsClamped]; decide

theorem Cell.OutputsClamped.nop {c : Cell} (h : c.OutputsClamped) : c.nop.OutputsClamped := h

theorem Cell.OutputsClamped.load {c : Cell} (k : Coeffs) (h : c.OutputsClamped) : (c.load k).OutputsClamped := h

theorem Cell.OutputsClamped.reset (c : Cell) : c.reset.OutputsClamped := by
  simp only [Cell.OutputsClamped, Cell.reset_y1, Cell.reset_y2]; decide

theorem Cell.OutputsClamped.process {c : Cell} (n : Nat) (x : Word) (h : c.OutputsClamped) :
    (c.process n x).OutputsClamped := ⟨isSubnormal_clamp _, h.1⟩

/-! ## Runs of commands -/

theorem execAll_one (i : Instr) (s : State) : execAll [i] s = exec i s := by
  simp only [execAll]
  split <;> simp_all

theorem execAll_append (is js : List Instr) (s : State) :
    execAll (is ++ js) s =
      match execAll is s with
      | .next t => execAll js t
      | .fault r => .fault r
      | .refused r => .refused r := by
  induction is generalizing s with
  | nil => rfl
  | cons i is ih =>
    simp only [List.cons_append, execAll]
    cases h : exec i s <;> simp [ih]

/-- A command on an initialised cell answers a next state, in which the cell is still initialised. -/
theorem exec_completes (i : Instr) {s : State} (h : s.initialised = true) :
    ∃ t, exec i s = .next t ∧ t.initialised = true := by
  cases i
  · exact ⟨_, exec_nop h, h⟩
  · exact ⟨_, exec_process _ h, h⟩
  · exact ⟨_, exec_load _ _ _ _ _ h, h⟩
  · exact ⟨_, exec_reset h, h⟩

end Sys2Proof.Machine
end

