-- ==== Sys2Proof/Laws/Controller.lean ====
section
/-! SUPPORT. The operations of the band and of the cascade: what each shared one can do, said once. -/

namespace Sys2Proof.Machine

/-! ## NOP steps between commands -/

@[simp] theorem Cell.idle_coeffs (d : Bool) (c : Cell) : (c.idle d).coeffs = c.coeffs := by
  cases d <;> rfl

@[simp] theorem Cell.idle_y1 (d : Bool) (c : Cell) : (c.idle d).y1 = c.y1 := by cases d <;> rfl

@[simp] theorem Cell.idle_y2 (d : Bool) (c : Cell) : (c.idle d).y2 = c.y2 := by cases d <;> rfl

theorem Cell.idle_cases (d : Bool) (c : Cell) : c.idle d = c ∨ c.idle d = c.nop := by
  cases d <;> simp [Cell.idle]

@[simp] theorem settleCells_length (n : Nat) (cs : List Cell) : (settleCells n cs).length = cs.length := by
  induction cs generalizing n with
  | nil => rfl
  | cons c cs ih => simp [settleCells, ih]

theorem mem_settleCells {n : Nat} {cs : List Cell} {d : Cell} (h : d ∈ settleCells n cs) :
    ∃ c ∈ cs, d = c ∨ d = c.nop := by
  induction cs generalizing n with
  | nil => simp [settleCells] at h
  | cons c cs ih =>
    simp only [settleCells, List.mem_cons] at h
    rcases h with rfl | h
    · exact ⟨c, by simp, Cell.idle_cases _ c⟩
    · obtain ⟨e, he, hd⟩ := ih h
      exact ⟨e, by simp [he], hd⟩

@[simp] theorem settleBands_length (n : Nat) (bs : List Band) : (settleBands n bs).length = bs.length := by
  induction bs generalizing n with
  | nil => rfl
  | cons b bs ih => simp [settleBands, ih]

theorem mem_settleBands {n : Nat} {bs : List Band} {d : Band} (h : d ∈ settleBands n bs) :
    ∃ b ∈ bs, ∃ m, d = b.settle m := by
  induction bs generalizing n with
  | nil => simp [settleBands] at h
  | cons b bs ih =>
    simp only [settleBands, List.mem_cons] at h
    rcases h with rfl | h
    · exact ⟨b, by simp, n, rfl⟩
    · obtain ⟨e, he, m, hd⟩ := ih h
      exact ⟨e, by simp [he], m, hd⟩

/-! ## A frame -/

@[simp] theorem processCells_length (n : Nat) (cs : List Cell) (xs : List Word) :
    (processCells n cs xs).length = cs.length := by
  induction cs generalizing n xs with
  | nil => rfl
  | cons c cs ih => cases xs <;> simp [processCells, ih]

theorem mem_processCells {n : Nat} {cs : List Cell} {xs : List Word} {d : Cell} (h : d ∈ processCells n cs xs) :
    ∃ c ∈ cs, d = c ∨ ∃ m x, d = c.process m x := by
  induction cs generalizing n xs with
  | nil => simp [processCells] at h
  | cons c cs ih =>
    cases xs with
    | nil => exact ⟨d, by simpa [processCells] using h, .inl rfl⟩
    | cons x xs =>
      simp only [processCells, List.mem_cons] at h
      rcases h with rfl | h
      · exact ⟨c, by simp, .inr ⟨n, x, rfl⟩⟩
      · obtain ⟨e, he, hd⟩ := ih h
        exact ⟨e, by simp [he], hd⟩

theorem Band.processFrame_enabled {b : Band} (n : Nat) (v : List Word) (h : b.enabled = true) :
    b.processFrame n v =
      ({ b with cells := processCells n b.cells v }, (processCells n b.cells v).map Cell.dout) := by
  simp [Band.processFrame, h]

theorem Band.processFrame_disabled {b : Band} (n : Nat) (v : List Word) (h : b.enabled = false) :
    b.processFrame n v = (b, v) := by
  simp [Band.processFrame, h]

/-- A frame changes nothing of a band but its cells. -/
theorem Band.processFrame_frame (n : Nat) (v : List Word) (b : Band) :
    ∃ cs, (b.processFrame n v).1 = { b with cells := cs } ∧ cs.length = b.cells.length := by
  by_cases h : b.enabled = true
  · exact ⟨processCells n b.cells v, by rw [Band.processFrame_enabled n v h], processCells_length n b.cells v⟩
  · exact ⟨b.cells, by rw [Band.processFrame_disabled n v (by simpa using h)], rfl⟩

theorem processBands_append (n : Nat) (as bs : List Band) (v : List Word) :
    processBands n (as ++ bs) v =
      let r := processBands n as v
      let q := processBands (n + drawsPerProcess * (as.map fun b => b.cells.length).sum) bs r.2
      (r.1 ++ q.1, q.2) := by
  induction as generalizing n v with
  | nil => simp [processBands]
  | cons a as ih => simp [processBands, ih, Nat.mul_add, Nat.add_assoc]

@[simp] theorem processBands_length (n : Nat) (bs : List Band) (v : List Word) :
    (processBands n bs v).1.length = bs.length := by
  induction bs generalizing n v with
  | nil => rfl
  | cons b bs ih => simp [processBands, ih]

/-! ## Operations before `init` -/

theorem Band.whenInitialised_of_not {b : Band} (f : Band → Band) (h : b.initialised = false) :
    b.whenInitialised f = b := by
  simp [Band.whenInitialised, h]

theorem Band.whenInitialised_of {b : Band} (f : Band → Band) (h : b.initialised = true) :
    b.whenInitialised f = f b := by
  simp [Band.whenInitialised, h]

theorem Equalizer.onBand_of_not {e : Equalizer} {k : Int} (f : Band → Band)
    (h : ¬(e.initialised ∧ 0 ≤ k ∧ k < (e.bandCount : Int))) : e.onBand k f = e := by
  simp only [Equalizer.onBand, if_neg h]

theorem Equalizer.onBand_of {e : Equalizer} {k : Int} (f : Band → Band)
    (h : e.initialised ∧ 0 ≤ k ∧ k < (e.bandCount : Int)) :
    e.onBand k f = { e with bands := e.bands.modify k.toNat f } := by
  simp only [Equalizer.onBand, if_pos h]

/-! ## What is well formed -/

theorem channelCountWellFormed_iff (n : Nat) : channelCountWellFormed n = true ↔ 1 ≤ n ∧ n ≤ 8 := by
  unfold channelCountWellFormed
  rw [Bool.and_eq_true, decide_eq_true_iff, decide_eq_true_iff]
  rfl

theorem channelCountWellFormed_eq_false (n : Nat) : channelCountWellFormed n = false ↔ n = 0 ∨ 8 < n := by
  rw [← Bool.not_eq_true, channelCountWellFormed_iff]
  omega

theorem bandCountWellFormed_iff (n : Nat) : bandCountWellFormed n = true ↔ 1 ≤ n := by
  simp [bandCountWellFormed]

theorem exists_ofCode {code : BitVec 3} (h : typeCodeWellFormed code = true) :
    ∃ type, FilterType.ofCode code = some type := by
  have all : ∀ c : BitVec 3, typeCodeWellFormed c = true → (FilterType.ofCode c).isSome = true := by decide
  exact Option.isSome_iff_exists.1 (all code h)

/-! ## Filter types -/

theorem withFilterType_next {code : BitVec 3} {f : FilterType → Host.Outcome State Fault Refusal} {t : State}
    (h : withFilterType code f = .next t) : ∃ type, FilterType.ofCode code = some type ∧ f type = .next t := by
  unfold withFilterType at h
  split at h
  · exact ⟨_, ‹_›, h⟩
  · cases h

theorem withFilterType_some {code : BitVec 3} {type : FilterType} (f : FilterType → Host.Outcome State Fault Refusal)
    (h : FilterType.ofCode code = some type) : withFilterType code f = f type := by
  simp [withFilterType, h]

theorem withFilterType_none {code : BitVec 3} (f : FilterType → Host.Outcome State Fault Refusal)
    (h : FilterType.ofCode code = none) : withFilterType code f = .refused .unknownFilterType := by
  simp [withFilterType, h]

@[simp] theorem FilterType.ofCode_code (t : FilterType) : FilterType.ofCode t.code = some t := by
  cases t <;> rfl

/-! ## Operations leave what they say, up to NOP steps -/

theorem settleCells_idleOf (n : Nat) (cs : List Cell) : List.Forall₂ Cell.IdleOf (settleCells n cs) cs := by
  induction cs generalizing n with
  | nil => exact .nil
  | cons c cs ih => exact .cons (Cell.idle_cases _ c) (ih _)

theorem Band.settle_idleOf (n : Nat) (b : Band) : (b.settle n).IdleOf b := ⟨_, settleCells_idleOf n b.cells, rfl⟩

theorem settleBands_idleOf (n : Nat) (bs : List Band) : List.Forall₂ Band.IdleOf (settleBands n bs) bs := by
  induction bs generalizing n with
  | nil => exact .nil
  | cons b bs ih => exact .cons (Band.settle_idleOf _ b) (ih _)

theorem State.putBand_idleOf (b : Band) (s : State) : (s.putBand b).band.IdleOf b := Band.settle_idleOf _ b

theorem State.putEqualizer_idleOf (e : Equalizer) (s : State) : (s.putEqualizer e).equalizer.IdleOf e :=
  ⟨_, settleBands_idleOf _ _, rfl⟩

theorem State.putBand_only (b : Band) (s : State) : s.OnlyBandDiffers (s.putBand b) := rfl

theorem State.putEqualizer_only (e : Equalizer) (s : State) : s.OnlyEqualizerDiffers (s.putEqualizer e) := rfl

/-- A NOP step shows on a cell only where `valid` was 1. -/
theorem Cell.idle_of_not_valid {c : Cell} (d : Bool) (h : c.valid = false) : c.idle d = c := by
  cases d
  · rfl
  · cases c; simp at h; subst h; rfl

theorem settleCells_of_not_valid {cs : List Cell} (n : Nat) (h : ∀ c ∈ cs, c.valid = false) : settleCells n cs = cs := by
  induction cs generalizing n with
  | nil => rfl
  | cons c cs ih =>
    simp only [settleCells, Cell.idle_of_not_valid _ (h c (by simp)), ih _ (fun d hd => h d (by simp [hd]))]

theorem settleBands_of_not_valid {bs : List Band} (n : Nat) (h : ∀ b ∈ bs, ∀ c ∈ b.cells, c.valid = false) :
    settleBands n bs = bs := by
  induction bs generalizing n with
  | nil => rfl
  | cons b bs ih =>
    have hb : b.settle n = b := by
      have := settleCells_of_not_valid n (h b (by simp))
      cases b; simp only [Band.settle] at *; congr 1
    simp only [settleBands, hb, ih _ (fun d hd => h d (by simp [hd]))]

/-! ## The machine's engine -/

theorem coeffs_of_ne {type : FilterType} (f sr bw g : Binary64) (h : type ≠ .parametricEQ) :
    coeffs type f sr bw g = coeffsWith Config.coefEval type f sr bw g := by
  simp [coeffs, h]

/-- At 0 dB the set is the unity set (R87). -/
theorem coeffs_zero_gain (f sr bw : Binary64) {g : Binary64} (h : eq64 g 0#64 = true) :
    coeffs .parametricEQ f sr bw g =
      unitySet (Config.b0FiniteNonzero (unnormalised .parametricEQ f sr bw g))
        (coeffsWith Config.coefEval .parametricEQ f sr bw g) := by
  simp [coeffs, h]

@[simp] theorem unitySet_a1 (b : Bool) (k : Coeffs) : (unitySet b k).a1 = k.b1 := rfl
@[simp] theorem unitySet_a2 (b : Bool) (k : Coeffs) : (unitySet b k).a2 = k.b2 := rfl
@[simp] theorem unitySet_b1 (b : Bool) (k : Coeffs) : (unitySet b k).b1 = k.b1 := rfl
@[simp] theorem unitySet_b2 (b : Bool) (k : Coeffs) : (unitySet b k).b2 = k.b2 := rfl
@[simp] theorem unitySet_true_a0 (k : Coeffs) : (unitySet true k).a0 = one := rfl
@[simp] theorem unitySet_false_a0 (k : Coeffs) : (unitySet false k).a0 = k.a0 := rfl

/-! ## What each operation makes of a band -/

theorem Band.init_cells (sampleRateHz : Binary64) (n : Nat) (type : FilterType) (f bw g : Binary64) :
    (Band.init sampleRateHz n type f bw g).cells =
      List.replicate n (Cell.load (Machine.coeffs type (clampFrequency hz20 f) sampleRateHz bw g) Cell.fresh.reset) := by
  simp [Band.init, Band.coeffs]

/-- `init`, field by field. -/
theorem Band.init_eq (sampleRateHz : Binary64) (n : Nat) (type : FilterType) (f bw g : Binary64) :
    Band.init sampleRateHz n type f bw g =
      { initialised := true, filterType := type, frequencyHz := clampFrequency hz20 f, bandwidthOctaves := bw,
        gainDb := g, enabled := true, sampleRateHz := sampleRateHz, channelCount := n,
        cells := List.replicate n
          (Cell.load (Machine.coeffs type (clampFrequency hz20 f) sampleRateHz bw g) Cell.fresh.reset) } := by
  simp only [← Band.init_cells]; rfl

/-- No operation but `init` touches `initialised`, the sample rate or the channel count. -/
structure Band.KeepsShape (f : Band → Band) : Prop where
  initialised (b : Band) : (f b).initialised = b.initialised
  channelCount (b : Band) : (f b).channelCount = b.channelCount
  sampleRateHz (b : Band) : (f b).sampleRateHz = b.sampleRateHz

theorem Band.reset_keepsShape : Band.KeepsShape Band.reset := by
  constructor <;> intro b <;> unfold Band.reset Band.whenInitialised <;> split <;> rfl

theorem Band.setEnabled_keepsShape (e : Bool) : Band.KeepsShape (Band.setEnabled e) := by
  constructor <;> intro b <;> unfold Band.setEnabled Band.whenInitialised <;> split <;> rfl

theorem Band.setType_keepsShape (type : FilterType) : Band.KeepsShape (Band.setType type) := by
  constructor
  all_goals intro b; unfold Band.setType Band.whenInitialised; dsimp only; split <;> [split <;> rfl; rfl]

theorem Band.setFrequency_keepsShape (f : Binary64) : Band.KeepsShape (Band.setFrequency f) := by
  constructor
  all_goals intro b; unfold Band.setFrequency Band.whenInitialised; dsimp only; split <;> [split <;> rfl; rfl]

theorem Band.setBandwidth_keepsShape (bw : Binary64) : Band.KeepsShape (Band.setBandwidth bw) := by
  constructor
  all_goals intro b; unfold Band.setBandwidth Band.whenInitialised; dsimp only; split <;> [split <;> rfl; rfl]

theorem Band.setGainDb_keepsShape (g : Binary64) : Band.KeepsShape (Band.setGainDb g) := by
  constructor
  all_goals intro b; unfold Band.setGainDb Band.whenInitialised; dsimp only; split <;>
    [split <;> [split <;> rfl; rfl]; rfl]

theorem Band.setParams_keepsShape (type : FilterType) (f bw g : Binary64) :
    Band.KeepsShape (Band.setParams type f bw g) := by
  constructor
  all_goals intro b; unfold Band.setParams Band.whenInitialised; dsimp only; split <;> [split <;> rfl; rfl]

/-! ## A frame, cell by cell and band by band -/

theorem processCells_getElem? (n : Nat) (cs : List Cell) (v : List Word) (i : Nat) (c : Cell) (x : Word)
    (hc : cs[i]? = some c) (hv : v[i]? = some x) :
    (processCells n cs v)[i]? = some (c.process (n + drawsPerProcess * i) x) := by
  induction cs generalizing n v i with
  | nil => simp at hc
  | cons a cs ih =>
    cases v with
    | nil => simp at hv
    | cons y v =>
      cases i with
      | zero => simp at hc hv; subst hc hv; simp [processCells]
      | succ i =>
        simp only [List.getElem?_cons_succ] at hc hv
        simp only [processCells, List.getElem?_cons_succ, ih _ v i hc hv]
        rw [show n + drawsPerProcess + drawsPerProcess * i = n + drawsPerProcess * (i + 1) by ring]

theorem mem_processBands {n : Nat} {bs : List Band} {v : List Word} {d : Band} (h : d ∈ (processBands n bs v).1) :
    ∃ b ∈ bs, ∃ m w, d = (b.processFrame m w).1 := by
  induction bs generalizing n v with
  | nil => simp [processBands] at h
  | cons b bs ih =>
    simp only [processBands, List.mem_cons] at h
    rcases h with rfl | h
    · exact ⟨b, by simp, n, v, rfl⟩
    · obtain ⟨e, he, m, w, hd⟩ := ih h
      exact ⟨e, by simp [he], m, w, hd⟩

theorem processBands_of_disabled (n : Nat) {bs : List Band} (v : List Word) (h : ∀ b ∈ bs, b.enabled = false) :
    processBands n bs v = (bs, v) := by
  induction bs generalizing n with
  | nil => rfl
  | cons b bs ih =>
    simp [processBands, Band.processFrame_disabled _ _ (h b (by simp)), ih _ (fun d hd => h d (by simp [hd]))]

end Sys2Proof.Machine
end

