-- ==== Sys2Proof/Laws/Decode.lean ====
section
/-! SUPPORT. The command format takes apart what it puts together. -/

namespace Sys2Proof

@[simp] theorem opField_assembleCmd (op : BitVec 2) (din : Word) (coef : BitVec 160) :
    opField (assembleCmd op din coef) = op := by
  ext i hi
  simp only [opField, assembleCmd, BitVec.getElem_extractLsb', BitVec.getLsbD_append]
  rw [if_pos (by omega)]
  simp [hi]

@[simp] theorem dinField_assembleCmd (op : BitVec 2) (din : Word) (coef : BitVec 160) :
    dinField (assembleCmd op din coef) = din := by
  ext i hi
  simp only [dinField, assembleCmd, BitVec.getElem_extractLsb', BitVec.getLsbD_append]
  rw [if_neg (by omega), if_pos (by omega)]
  simp [show 2 + i - 2 = i by omega, hi]

@[simp] theorem coefField_assembleCmd (op : BitVec 2) (din : Word) (coef : BitVec 160) :
    coefField (assembleCmd op din coef) = coef := by
  ext i hi
  simp only [coefField, assembleCmd, BitVec.getElem_extractLsb', BitVec.getLsbD_append]
  rw [if_neg (by omega), if_neg (by omega)]
  simp [show 34 + i - 2 - 32 = i by omega, hi]

@[simp] theorem coefLanes_coefBus (k : Coeffs) : coefLanes (coefBus k) = k := by
  obtain ⟨a0, a1, a2, b1, b2⟩ := k
  simp only [coefLanes, coefBus, Coeffs.mk.injEq]
  refine ⟨?_, ?_, ?_, ?_, ?_⟩ <;> ext i hi <;>
    simp only [BitVec.getElem_extractLsb', BitVec.getLsbD_append] <;>
    repeat first
      | rw [if_pos (by omega)]
      | rw [if_neg (by omega)]
  · simp [hi]
  · simp [show 32 + i - 32 = i by omega, hi]
  · simp [show 64 + i - 32 - 32 = i by omega, hi]
  · simp [show 96 + i - 32 - 32 - 32 = i by omega, hi]
  · simp [show 128 + i - 32 - 32 - 32 - 32 = i by omega, hi]

/-- A command is the three fields it is made of. -/
@[simp] theorem assembleCmd_fields (w : Cmd) : assembleCmd (opField w) (dinField w) (coefField w) = w := by
  apply BitVec.eq_of_getLsbD_eq
  intro i hi
  simp only [assembleCmd, BitVec.getLsbD_append, opField, dinField, coefField, BitVec.getLsbD_extractLsb']
  split
  · simp [*]
  · split
    · simp [*]; rw [show 2 + (i - 2) = i by omega, BitVec.getLsbD_eq_getElem hi]
    · simp [show i - 2 - 32 < 160 by omega]; rw [show 34 + (i - 2 - 32) = i by omega]

/-- A bus is its five lanes. -/
@[simp] theorem coefBus_coefLanes (coef : BitVec 160) : coefBus (coefLanes coef) = coef := by
  apply BitVec.eq_of_getLsbD_eq
  intro i hi
  simp only [coefBus, coefLanes, BitVec.getLsbD_append, BitVec.getLsbD_extractLsb']
  split
  · simp [*]
  · split
    · simp [*]; rw [show 32 + (i - 32) = i by omega, BitVec.getLsbD_eq_getElem hi]
    · split
      · simp [*]; rw [show 64 + (i - 32 - 32) = i by omega, BitVec.getLsbD_eq_getElem hi]
      · split
        · simp [*]; rw [show 96 + (i - 32 - 32 - 32) = i by omega, BitVec.getLsbD_eq_getElem hi]
        · simp [show i - 32 - 32 - 32 - 32 < 32 by omega]
          rw [show 128 + (i - 32 - 32 - 32 - 32) = i by omega]

@[simp] theorem Port.opField_cmd (p : Port) : opField p.cmd = p.op := opField_assembleCmd _ _ _

@[simp] theorem Port.dinField_cmd (p : Port) : dinField p.cmd = p.din := dinField_assembleCmd _ _ _

@[simp] theorem Port.coefField_cmd (p : Port) : coefField p.cmd = p.coef := coefField_assembleCmd _ _ _

@[simp] theorem Port.cmd_ofCmd (w : Cmd) : (Port.ofCmd w).cmd = w := assembleCmd_fields w

@[simp] theorem Port.init_ofCmd (w : Cmd) : (Port.ofCmd w).init = false := rfl

/-- The four command codes are all there are (R50). -/
theorem op_cases (op : BitVec 2) : op = 0b00#2 ∨ op = 0b01#2 ∨ op = 0b10#2 ∨ op = 0b11#2 := by
  revert op; decide

end Sys2Proof
end

