-- ==== Sys2Proof/Laws/Rounding.lean ====
section
/-! SUPPORT. The integer facts under IEEE rounding: the nearest whole number, the grid of a format, and that rounding picks
the nearest magnitude of the format. -/

namespace Sys2Proof.Machine

/-! ## The nearest whole number -/

theorem roundHalfEven_bounds (num : Nat) {den : Nat} (hd : 0 < den) :
    2 * (roundHalfEven num den * den) ≤ 2 * num + den ∧ 2 * num ≤ 2 * (roundHalfEven num den * den) + den := by
  have h1 := Nat.div_add_mod num den
  have h2 := Nat.mod_lt num hd
  have hc : den * (num / den) = num / den * den := Nat.mul_comm _ _
  unfold roundHalfEven
  simp only
  split
  · rename_i h
    have hm : (num / den + 1) * den = num / den * den + den := by ring
    rw [hm]
    omega
  · omega

/-- A tie goes to the even whole number. -/
theorem roundHalfEven_tie {num den k : Nat} (hd : 0 < den) (hk : 2 * num = 2 * (k * den) + den) :
    roundHalfEven num den % 2 = 0 := by
  have hmod : num / den = k ∧ 2 * (num % den) = den := by
    have hlt : num < (k + 1) * den := by
      have : (k + 1) * den = k * den + den := by ring
      omega
    have hq : num / den = k := Nat.div_eq_of_lt_le (by omega) hlt
    have h1 := Nat.div_add_mod num den
    rw [hq] at h1
    have hc : den * k = k * den := Nat.mul_comm _ _
    exact ⟨hq, by omega⟩
  obtain ⟨hq, hr⟩ := hmod
  unfold roundHalfEven
  simp only [hq]
  split <;> omega

theorem roundHalfEven_exact (k : Nat) {den : Nat} (hd : 0 < den) : roundHalfEven (k * den) den = k := by
  unfold roundHalfEven
  simp only [Nat.mul_div_cancel _ hd, Nat.mul_mod_left]
  split <;> omega

theorem roundHalfEven_le {num den k : Nat} (hd : 0 < den) (h : num ≤ k * den) : roundHalfEven num den ≤ k := by
  have hb := (roundHalfEven_bounds num hd).1
  by_contra hn
  have h2 : (k + 1) * den ≤ roundHalfEven num den * den := Nat.mul_le_mul_right _ (by omega)
  have h3 : (k + 1) * den = k * den + den := by ring
  omega

theorem le_roundHalfEven {num den k : Nat} (hd : 0 < den) (h : k * den ≤ num) : k ≤ roundHalfEven num den := by
  have hk : k ≤ num / den := (Nat.le_div_iff_mul_le hd).2 h
  unfold roundHalfEven
  simp only
  split <;> omega

/-! ## The grid of a format -/

theorem magUnits_of_lt {F : Format} {m : Nat} (h : m < 2 ^ F.fracBits) : magUnits F m = m := by
  simp [magUnits, h]

/-- The value of significand `k` in binade `s`: the pattern is `s · 2^fracBits + k`. -/
theorem magUnits_grid (F : Format) (s k : Nat) (hk : k ≤ 2 ^ (F.fracBits + 1)) (h : s = 0 ∨ 2 ^ F.fracBits ≤ k) :
    magUnits F (s * 2 ^ F.fracBits + k) = k * 2 ^ s := by
  have hp : 0 < 2 ^ F.fracBits := Nat.two_pow_pos _
  have h2 : 2 ^ (F.fracBits + 1) = 2 * 2 ^ F.fracBits := by ring
  generalize hP : 2 ^ F.fracBits = P at *
  by_cases hlt : k < P
  · have hs : s = 0 := by omega
    subst hs
    simp [magUnits, hP, hlt]
  · have hge : ¬ s * P + k < P := by
      have : 0 ≤ s * P := Nat.zero_le _
      omega
    by_cases htop : k = 2 * P
    · subst htop
      have e1 : s * P + 2 * P = (s + 2) * P := by ring
      have d1 : (s + 2) * P / P = s + 2 := Nat.mul_div_cancel _ hp
      have m1 : (s + 2) * P % P = 0 := Nat.mul_mod_left _ _
      rw [e1] at hge ⊢
      simp only [magUnits, hP, hge, if_false, d1, m1]
      rw [show s + 2 - 1 = s + 1 by omega, pow_succ]
      ring
    · obtain ⟨f, rfl⟩ : ∃ f, k = P + f := ⟨k - P, by omega⟩
      have hf : f < P := by omega
      have e1 : s * P + (P + f) = f + (s + 1) * P := by ring
      have d1 : (f + (s + 1) * P) / P = s + 1 := by
        rw [Nat.add_mul_div_right _ _ hp, Nat.div_eq_of_lt hf]; omega
      have m1 : (f + (s + 1) * P) % P = f := by
        rw [Nat.add_mul_mod_self_right, Nat.mod_eq_of_lt hf]
      rw [e1] at hge ⊢
      simp only [magUnits, hP, hge, if_false, d1, m1]
      rw [show s + 1 - 1 = s by omega]

/-- Every magnitude pattern is a significand in a binade. -/
theorem exists_grid (F : Format) (m : Nat) :
    ∃ s k, m = s * 2 ^ F.fracBits + k ∧ k < 2 ^ (F.fracBits + 1) ∧ (s = 0 ∨ 2 ^ F.fracBits ≤ k) := by
  have hp : 0 < 2 ^ F.fracBits := Nat.two_pow_pos _
  have h2 : 2 ^ (F.fracBits + 1) = 2 * 2 ^ F.fracBits := by ring
  generalize hP : 2 ^ F.fracBits = P at *
  by_cases h : m < P
  · exact ⟨0, m, by simp, by omega, .inl rfl⟩
  · refine ⟨m / P - 1, P + m % P, ?_, ?_, .inr (by omega)⟩
    · have h1 := Nat.div_add_mod m P
      have hq : 1 ≤ m / P := (Nat.one_le_div_iff hp).2 (by omega)
      obtain ⟨q, hq'⟩ : ∃ q, m / P = q + 1 := ⟨m / P - 1, by omega⟩
      rw [hq'] at h1 ⊢
      have e : P * (q + 1) = q * P + P := by ring
      simp only [Nat.add_sub_cancel]
      omega
    · have := Nat.mod_lt m hp
      omega

/-! ## The binade of a value -/

theorem binade_spec (F : Format) (q : Nat) :
    q < 2 ^ (F.fracBits + 1 + binade F q) ∧ (binade F q = 0 ∨ 2 ^ (F.fracBits + binade F q) ≤ q) := by
  unfold binade
  by_cases hq : q = 0
  · subst hq; simp
  · have hlo := Nat.log2_self_le hq
    have hhi : q < 2 ^ (q.log2 + 1) := Nat.lt_log2_self
    constructor
    · exact lt_of_lt_of_le hhi (Nat.pow_le_pow_right (by omega) (by omega))
    · by_cases h : q.log2 ≤ F.fracBits
      · left; omega
      · right
        rw [show F.fracBits + (q.log2 - F.fracBits) = q.log2 by omega]
        exact hlo

/-- What rounding does, in the binade it works in: the significand is the nearest whole number, and stays in range. -/
theorem roundMag_spec (F : Format) (num : Nat) {den : Nat} (hd : 0 < den) :
    ∃ s, roundMag F num den = s * 2 ^ F.fracBits + roundHalfEven num (den * 2 ^ s) ∧
      roundHalfEven num (den * 2 ^ s) ≤ 2 ^ (F.fracBits + 1) ∧
      (s = 0 ∨ 2 ^ F.fracBits ≤ roundHalfEven num (den * 2 ^ s)) ∧
      (s = 0 ∨ 2 ^ (F.fracBits + s) * den ≤ num) ∧ num < 2 ^ (F.fracBits + 1 + s) * den := by
  obtain ⟨hhi, hlo⟩ := binade_spec F (num / den)
  refine ⟨binade F (num / den), rfl, ?_, ?_, ?_, ?_⟩
  · apply roundHalfEven_le (Nat.mul_pos hd (Nat.two_pow_pos _))
    have h := (Nat.div_lt_iff_lt_mul hd).1 hhi
    calc num ≤ 2 ^ (F.fracBits + 1 + binade F (num / den)) * den := h.le
      _ = _ := by rw [pow_add]; ring
  · rcases hlo with h | h
    · exact .inl h
    · right
      apply le_roundHalfEven (Nat.mul_pos hd (Nat.two_pow_pos _))
      have h' := (Nat.le_div_iff_mul_le hd).1 h
      calc 2 ^ F.fracBits * (den * 2 ^ binade F (num / den)) = 2 ^ (F.fracBits + binade F (num / den)) * den := by
            rw [pow_add]; ring
        _ ≤ num := h'
  · rcases hlo with h | h
    · exact .inl h
    · exact .inr ((Nat.le_div_iff_mul_le hd).1 h)
  · exact (Nat.div_lt_iff_lt_mul hd).1 hhi

/-- A magnitude of the format is rounded to itself. -/
theorem roundMag_exact (F : Format) (m : Nat) {den : Nat} (hd : 0 < den) : roundMag F (magUnits F m * den) den = m := by
  obtain ⟨s, k, rfl, hk, hs⟩ := exists_grid F m
  have hu : magUnits F (s * 2 ^ F.fracBits + k) = k * 2 ^ s := magUnits_grid F s k hk.le hs
  have hb : binade F (k * 2 ^ s) = s := by
    obtain ⟨hhi, hlo⟩ := binade_spec F (k * 2 ^ s)
    apply le_antisymm
    · by_contra hn
      rcases hlo with h | h
      · omega
      · have : k * 2 ^ s < 2 ^ (F.fracBits + 1) * 2 ^ s := Nat.mul_lt_mul_of_pos_right hk (Nat.two_pow_pos _)
        rw [← pow_add] at this
        have := Nat.pow_le_pow_right (n := 2) (by omega) (show F.fracBits + 1 + s ≤ F.fracBits + binade F (k * 2 ^ s) by omega)
        omega
    · by_contra hn
      rcases hs with h | h
      · omega
      · have h1 : 2 ^ F.fracBits * 2 ^ s ≤ k * 2 ^ s := Nat.mul_le_mul_right _ h
        rw [← pow_add] at h1
        have := Nat.pow_le_pow_right (n := 2) (by omega) (show F.fracBits + 1 + binade F (k * 2 ^ s) ≤ F.fracBits + s by omega)
        omega
  unfold roundMag
  rw [hu, Nat.mul_div_cancel _ hd]
  simp only [hb]
  rw [show k * 2 ^ s * den = k * (den * 2 ^ s) by ring, roundHalfEven_exact _ (Nat.mul_pos hd (Nat.two_pow_pos _))]

/-- The rounded magnitude is at least as near to `num / den` as any other magnitude of the format, and where another one
is as near, it is the even one. Distances are in units of a quantum over `den`. -/
theorem roundMag_nearest (F : Format) (num : Nat) {den : Nat} (hd : 0 < den) (m : Nat) :
    |(num : Int) - magUnits F (roundMag F num den) * den| ≤ |(num : Int) - magUnits F m * den| ∧
    (|(num : Int) - magUnits F m * den| = |(num : Int) - magUnits F (roundMag F num den) * den| →
      magUnits F m ≠ magUnits F (roundMag F num den) → 0 < F.fracBits → roundMag F num den % 2 = 0) := by
  obtain ⟨s, hr, hk2, hk, hlo, hhi⟩ := roundMag_spec F num hd
  generalize hK : roundHalfEven num (den * 2 ^ s) = K at *
  have hD : 0 < den * 2 ^ s := Nat.mul_pos hd (Nat.two_pow_pos _)
  have hu : magUnits F (roundMag F num den) = K * 2 ^ s := by rw [hr]; exact magUnits_grid F s K hk2 hk
  obtain ⟨b1, b2⟩ := roundHalfEven_bounds num hD
  rw [hK] at b1 b2
  have hKD : (K * 2 ^ s) * den = K * (den * 2 ^ s) := by ring
  have near : 2 * |(num : Int) - ((K * 2 ^ s : Nat) : Int) * den| ≤ ((den * 2 ^ s : Nat) : Int) := by
    have e : ((K * 2 ^ s : Nat) : Int) * (den : Int) = ((K * (den * 2 ^ s) : Nat) : Int) := by
      rw [← hKD]; push_cast; ring
    rw [e]
    have hb1 : (2 * (K * (den * 2 ^ s)) : Nat) ≤ 2 * num + den * 2 ^ s := b1
    have hb2 : 2 * num ≤ (2 * (K * (den * 2 ^ s)) : Nat) + den * 2 ^ s := b2
    rcases abs_cases ((num : Int) - ((K * (den * 2 ^ s) : Nat) : Int)) with h | h <;> rw [h.1] <;> omega
  obtain ⟨s', k', rfl, hk2', hk'⟩ := exists_grid F m
  have hu' : magUnits F (s' * 2 ^ F.fracBits + k') = k' * 2 ^ s' := magUnits_grid F s' k' hk2'.le hk'
  rw [hu, hu']
  by_cases hss : s ≤ s'
  · -- the other magnitude is on the grid of this binade
    obtain ⟨t, rfl⟩ : ∃ t, s' = s + t := ⟨s' - s, by omega⟩
    set J := k' * 2 ^ t with hJ
    have hJs : k' * 2 ^ (s + t) = J * 2 ^ s := by rw [hJ, pow_add]; ring
    rw [hJs]
    by_cases hJK : J = K
    · rw [hJK]; exact ⟨le_refl _, fun _ h => absurd rfl h⟩
    · have e1 : ((J * 2 ^ s : Nat) : Int) * (den : Int) = (J : Int) * ((den * 2 ^ s : Nat) : Int) := by push_cast; ring
      have e2 : ((K * 2 ^ s : Nat) : Int) * (den : Int) = (K : Int) * ((den * 2 ^ s : Nat) : Int) := by push_cast; ring
      rw [e1, e2]
      rw [e2] at near
      generalize hDD : den * 2 ^ s = D at *
      have hgap : (D : Int) ≤ |(J : Int) * D - (K : Int) * D| := by
        rw [← sub_mul, abs_mul, abs_of_nonneg (show (0 : Int) ≤ (D : Int) by omega)]
        have : (1 : Int) ≤ |(J : Int) - (K : Int)| := Int.one_le_abs (by omega)
        nlinarith
      have htri : |(J : Int) * D - (K : Int) * D| ≤ |(num : Int) - (J : Int) * D| + |(num : Int) - (K : Int) * D| := by
        have := abs_sub_le ((J : Int) * D) (num : Int) ((K : Int) * D)
        rwa [abs_sub_comm ((J : Int) * D) (num : Int)] at this
      refine ⟨by omega, fun heq _ hfb => ?_⟩
      have hhalf : 2 * |(num : Int) - (K : Int) * D| = (D : Int) := by omega
      have hK0 : K % 2 = 0 := by
        rw [← hK]
        rcases abs_cases ((num : Int) - (K : Int) * D) with h | h
        · refine roundHalfEven_tie (k := K) hD ?_
          rw [h.1] at hhalf
          have : (2 : Int) * num = 2 * (K * D) + D := by linarith
          exact_mod_cast this
        · have hKpos : 1 ≤ K := by
            by_contra hc
            have : K = 0 := by omega
            rw [this] at h
            simp at h
            omega
          refine roundHalfEven_tie (k := K - 1) hD ?_
          rw [h.1] at hhalf
          obtain ⟨K', rfl⟩ : ∃ K', K = K' + 1 := ⟨K - 1, by omega⟩
          have : (2 : Int) * num = 2 * (K' * D) + D := by push_cast at hhalf; linarith
          simp only [Nat.add_sub_cancel]
          exact_mod_cast this
      rw [hr]
      obtain ⟨f, hf⟩ : ∃ f, F.fracBits = f + 1 := ⟨F.fracBits - 1, by omega⟩
      rw [hf, show s * 2 ^ (f + 1) = 2 * (s * 2 ^ f) by rw [pow_succ]; ring]
      omega
  · -- the other magnitude is below this binade, and so is not nearer than the binade's lowest grid point
    have hs0 : s ≠ 0 := by omega
    have hlo' : 2 ^ (F.fracBits + s) * den ≤ num := hlo.resolve_left hs0
    have hKlo : 2 ^ F.fracBits ≤ K := hk.resolve_left hs0
    have hlt : k' * 2 ^ s' < 2 ^ (F.fracBits + s) := by
      calc k' * 2 ^ s' < 2 ^ (F.fracBits + 1) * 2 ^ s' := Nat.mul_lt_mul_of_pos_right hk2' (Nat.two_pow_pos _)
        _ = 2 ^ (F.fracBits + 1 + s') := by rw [← pow_add]
        _ ≤ _ := Nat.pow_le_pow_right (by omega) (by omega)
    have hlt' : (k' * 2 ^ s') * den < 2 ^ (F.fracBits + s) * den := Nat.mul_lt_mul_of_pos_right hlt hd
    set P := 2 ^ F.fracBits with hP
    have hPs : 2 ^ (F.fracBits + s) * den = P * (den * 2 ^ s) := by rw [pow_add]; ring
    have e2 : ((K * 2 ^ s : Nat) : Int) * (den : Int) = ((K * (den * 2 ^ s) : Nat) : Int) := by push_cast; ring
    have e3 : ((k' * 2 ^ s' : Nat) : Int) * (den : Int) = (((k' * 2 ^ s') * den : Nat) : Int) := by push_cast; ring
    rw [e2] at near ⊢
    rw [e3]
    rw [hPs] at hlo' hlt'
    generalize (k' * 2 ^ s') * den = X at *
    generalize hDD : den * 2 ^ s = D at *
    -- the lowest grid point of the binade is no nearer than K
    have hgrid : |(num : Int) - ((K * D : Nat) : Int)| ≤ (num : Int) - ((P * D : Nat) : Int) := by
      by_cases hPK : K = P
      · rw [hPK, abs_of_nonneg (by omega)]
      · have h1 : (P + 1) * D ≤ K * D := Nat.mul_le_mul_right _ (by omega)
        have h2 : (P + 1) * D = P * D + D := by ring
        rcases abs_cases ((num : Int) - ((K * D : Nat) : Int)) with h | h <;> omega
    have hX : |(num : Int) - (X : Int)| = (num : Int) - (X : Int) := abs_of_nonneg (by omega)
    rw [hX]
    exact ⟨by omega, fun heq => by omega⟩

end Sys2Proof.Machine
end

