-- ==== Sys2Proof/Laws/Float.lean ====
section
/-! SUPPORT. The binary32 operations in terms of the fields of their operands: classification, the two readings of a
pattern, and what each operation answers in each case (R9, R57, R58). -/

namespace Sys2Proof.Machine

/-! ## Fields as numbers -/

theorem expField_toNat (v : Word) : (expField v).toNat = v.toNat / 2 ^ 23 % 2 ^ 8 := by
  simp [expField, BitVec.extractLsb'_toNat, Nat.shiftRight_eq_div_pow]

theorem fracField_toNat (v : Word) : (fracField v).toNat = v.toNat % 2 ^ 23 := by
  simp [fracField, BitVec.extractLsb'_toNat]

theorem signField_eq (v : Word) : signField v = decide (2 ^ 31 ≤ v.toNat) := by
  have h := v.isLt
  rw [signField, BitVec.getLsbD, Nat.testBit_eq_decide_div_mod_eq]
  congr 1
  apply propext
  constructor <;> intro h' <;> omega

theorem expField_beq (v : Word) (n : Nat) (hn : n < 256) :
    (expField v == BitVec.ofNat 8 n) = decide (v.toNat / 2 ^ 23 % 2 ^ 8 = n) := by
  rw [Bool.eq_iff_iff, beq_iff_eq, decide_eq_true_iff, ← BitVec.toNat_inj, expField_toNat, BitVec.toNat_ofNat,
    show n % 2 ^ 8 = n from Nat.mod_eq_of_lt hn]

theorem fracField_beq (v : Word) : (fracField v == 0#23) = decide (v.toNat % 2 ^ 23 = 0) := by
  rw [Bool.eq_iff_iff, beq_iff_eq, decide_eq_true_iff, ← BitVec.toNat_inj, fracField_toNat]
  rfl

/-! ## Classification -/

/-- The classes of R9 as ranges of the magnitude pattern `v[30:0]`. -/
theorem isFinite_eq (v : Word) : isFinite v = decide (v.toNat % 2 ^ 31 < 0x7F800000) := by
  have h := expField_beq v 255 (by omega)
  have e : isFinite v = !(expField v == 255#8) := rfl
  rw [e, h, Bool.eq_iff_iff]
  simp only [Bool.not_eq_true', decide_eq_false_iff_not, decide_eq_true_iff]
  have := v.isLt
  omega

theorem isInf_eq (v : Word) : isInf v = decide (v.toNat % 2 ^ 31 = 0x7F800000) := by
  have h := expField_beq v 255 (by omega)
  have e : isInf v = ((expField v == 255#8) && (fracField v == 0#23)) := rfl
  rw [e, h, fracField_beq, Bool.eq_iff_iff]
  simp only [Bool.and_eq_true, decide_eq_true_iff]
  have := v.isLt
  omega

theorem isNaN_eq (v : Word) : isNaN v = decide (0x7F800000 < v.toNat % 2 ^ 31) := by
  have h := expField_beq v 255 (by omega)
  have e : isNaN v = ((expField v == 255#8) && !(fracField v == 0#23)) := rfl
  rw [e, h, fracField_beq, Bool.eq_iff_iff]
  simp only [Bool.and_eq_true, Bool.not_eq_true', decide_eq_false_iff_not, decide_eq_true_iff]
  have := v.isLt
  omega

theorem isZero_eq (v : Word) : isZero v = decide (v.toNat % 2 ^ 31 = 0) := by
  have h := expField_beq v 0 (by omega)
  have e : isZero v = ((expField v == 0#8) && (fracField v == 0#23)) := rfl
  rw [e, h, fracField_beq, Bool.eq_iff_iff]
  simp only [Bool.and_eq_true, decide_eq_true_iff]
  have := v.isLt
  omega

theorem isSubnormal_eq (v : Word) : isSubnormal v = decide (0 < v.toNat % 2 ^ 31 ∧ v.toNat % 2 ^ 31 < 2 ^ 23) := by
  have h := expField_beq v 0 (by omega)
  have e : isSubnormal v = ((expField v == 0#8) && !(fracField v == 0#23)) := rfl
  rw [e, h, fracField_beq, Bool.eq_iff_iff]
  simp only [Bool.and_eq_true, Bool.not_eq_true', decide_eq_false_iff_not, decide_eq_true_iff]
  have := v.isLt
  omega

theorem isNormal_eq (v : Word) :
    isNormal v = decide (2 ^ 23 ≤ v.toNat % 2 ^ 31 ∧ v.toNat % 2 ^ 31 < 0x7F800000) := by
  have h0 := expField_beq v 0 (by omega)
  have h1 := expField_beq v 255 (by omega)
  have e : isNormal v = (!(expField v == 0#8) && !(expField v == 255#8)) := rfl
  rw [e, h0, h1, Bool.eq_iff_iff]
  simp only [Bool.and_eq_true, Bool.not_eq_true', decide_eq_false_iff_not, decide_eq_true_iff]
  have := v.isLt
  omega

/-- Every pattern is finite, an infinity or a NaN, and only one of them. -/
theorem class_cases (v : Word) :
    (isFinite v = true ∧ isInf v = false ∧ isNaN v = false) ∨
    (isFinite v = false ∧ isInf v = true ∧ isNaN v = false) ∨
    (isFinite v = false ∧ isInf v = false ∧ isNaN v = true) := by
  simp only [isFinite_eq, isInf_eq, isNaN_eq, decide_eq_true_iff, decide_eq_false_iff_not]
  omega

/-! ## The two readings of a pattern agree -/

theorem signWeight32 : signWeight binary32 = 2 ^ 31 := by decide

theorem infMag32 : infMag binary32 = 0x7F800000 := by decide

theorem quantaPerOne32 : quantaPerOne binary32 = 2 ^ 149 := by decide

theorem magnitude_eq (v : Word) : magnitude v = magUnits binary32 (v.toNat % 2 ^ 31) := by
  have hv := v.isLt
  have hf : binary32.fracBits = 23 := rfl
  unfold magnitude magUnits
  rw [expField_toNat, fracField_toNat, hf]
  have h1 : v.toNat % 2 ^ 31 / 2 ^ 23 = v.toNat / 2 ^ 23 % 2 ^ 8 := by omega
  have h2 : v.toNat % 2 ^ 31 % 2 ^ 23 = v.toNat % 2 ^ 23 := by omega
  rw [h1, h2]
  by_cases h : v.toNat / 2 ^ 23 % 2 ^ 8 = 0
  · rw [if_pos h, if_pos (by omega)]; omega
  · rw [if_neg h, if_neg (by omega)]

theorem signField_beq (v : Word) : (v.toNat / 2 ^ 31 % 2 == 1) = signField v := by
  have h := v.isLt
  rw [signField_eq, Bool.eq_iff_iff, beq_iff_eq, decide_eq_true_iff]
  omega

theorem datum_of_finite {v : Word} (h : isFinite v = true) : datum binary32 v.toNat = .fin (signField v) (magnitude v) := by
  rw [isFinite_eq, decide_eq_true_iff] at h
  unfold datum
  simp only [signWeight32, infMag32]
  rw [if_pos h, signField_beq, magnitude_eq]

theorem datum_of_inf {v : Word} (h : isInf v = true) : datum binary32 v.toNat = .inf (signField v) := by
  rw [isInf_eq, decide_eq_true_iff] at h
  unfold datum
  simp only [signWeight32, infMag32]
  rw [if_neg (by omega), if_pos h, signField_beq]

theorem datum_of_nan {v : Word} (h : isNaN v = true) : datum binary32 v.toNat = .nan := by
  rw [isNaN_eq, decide_eq_true_iff] at h
  unfold datum
  simp only [signWeight32, infMag32]
  rw [if_neg (by omega), if_neg (by omega)]

theorem quanta_eq (v : Word) : quanta v = signedUnits (signField v) (magnitude v) := rfl

/-- A finite value's magnitude is 0 only for a zero. -/
theorem magnitude_eq_zero (v : Word) : magnitude v = 0 ↔ isZero v = true := by
  rw [isZero_eq, decide_eq_true_iff, magnitude_eq]
  unfold magUnits
  split
  · rfl
  · constructor
    · intro h
      have := Nat.two_pow_pos (v.toNat % 2 ^ 31 / 2 ^ binary32.fracBits - 1)
      rcases Nat.mul_eq_zero.1 h with h | h
      · have := Nat.two_pow_pos binary32.fracBits; omega
      · omega
    · intro h
      rename_i hn
      rw [h] at hn
      exact absurd (Nat.two_pow_pos _) hn

/-! ## Patterns that results take -/

/-- The pattern with sign `s` and magnitude pattern `m`. -/
def signed32 (s : Bool) (m : Nat) : Word := BitVec.ofNat 32 (withSign binary32 s m)

theorem signed32_toNat (s : Bool) {m : Nat} (h : m ≤ 0x7F800000) :
    (signed32 s m).toNat = (if s then 2 ^ 31 else 0) + m := by
  unfold signed32 withSign
  rw [BitVec.toNat_ofNat, signWeight32]
  cases s
  · simp; omega
  · simp; omega

theorem signed32_mod (s : Bool) {m : Nat} (h : m ≤ 0x7F800000) : (signed32 s m).toNat % 2 ^ 31 = m := by
  rw [signed32_toNat s h]
  cases s
  · simp; omega
  · simp; omega

theorem signed32_sign (s : Bool) {m : Nat} (h : m ≤ 0x7F800000) : signField (signed32 s m) = s := by
  rw [signField_eq, signed32_toNat s h]
  cases s
  · simp; omega
  · simp

theorem signed32_not_nan (s : Bool) {m : Nat} (h : m ≤ 0x7F800000) : isNaN (signed32 s m) = false := by
  rw [isNaN_eq, signed32_mod s h, decide_eq_false_iff_not]; omega

theorem signed32_finite (s : Bool) {m : Nat} (h : m ≤ 0x7F800000) :
    isFinite (signed32 s m) = decide (m < 0x7F800000) := by
  rw [isFinite_eq, signed32_mod s h]

theorem signed32_inf (s : Bool) {m : Nat} (h : m ≤ 0x7F800000) : isInf (signed32 s m) = decide (m = 0x7F800000) := by
  rw [isInf_eq, signed32_mod s h]

theorem signed32_magnitude (s : Bool) {m : Nat} (h : m ≤ 0x7F800000) :
    magnitude (signed32 s m) = magUnits binary32 m := by
  rw [magnitude_eq, signed32_mod s h]

/-- A pattern is its sign and its magnitude pattern. -/
theorem signed32_eta (v : Word) : signed32 (signField v) (v.toNat % 2 ^ 31) = v := by
  apply BitVec.eq_of_toNat_eq
  have h := v.isLt
  rw [signField_eq]
  unfold signed32 withSign
  rw [BitVec.toNat_ofNat, signWeight32]
  by_cases hs : 2 ^ 31 ≤ v.toNat
  · simp only [hs, decide_true, if_true]; omega
  · simp only [hs, decide_false, Bool.false_eq_true, if_false]; omega

theorem roundFinite_le (F : Format) (num den : Nat) : roundFinite F num den ≤ infMag F := Nat.min_le_right _ _

theorem roundFinite32_le (num den : Nat) : roundFinite binary32 num den ≤ 0x7F800000 := by
  rw [← infMag32]; exact roundFinite_le _ _ _

/-! ## What the operations answer -/

theorem fmul_finite {p q : Word} (nan : Word) (hp : isFinite p = true) (hq : isFinite q = true) :
    fmul nan p q =
      signed32 (signField p != signField q) (roundFinite binary32 (magnitude p * magnitude q) (2 ^ 149)) := by
  unfold fmul
  rw [datum_of_finite hp, datum_of_finite hq, ← quantaPerOne32]
  rfl

theorem fmul_nan_left {p : Word} (nan q : Word) (h : isNaN p = true) : fmul nan p q = nan := by
  unfold fmul
  rw [datum_of_nan h]
  simp [mulDatum]

theorem fmul_nan_right {q : Word} (nan p : Word) (h : isNaN q = true) : fmul nan p q = nan := by
  unfold fmul
  rw [datum_of_nan h]
  cases datum binary32 p.toNat <;> simp [mulDatum]

theorem fmul_inf_inf {p q : Word} (nan : Word) (hp : isInf p = true) (hq : isInf q = true) :
    fmul nan p q = signed32 (signField p != signField q) 0x7F800000 := by
  unfold fmul
  rw [datum_of_inf hp, datum_of_inf hq, ← infMag32]
  rfl

theorem fmul_inf_finite {p q : Word} (nan : Word) (hp : isInf p = true) (hq : isFinite q = true) :
    fmul nan p q = if isZero q then nan else signed32 (signField p != signField q) 0x7F800000 := by
  unfold fmul
  rw [datum_of_inf hp, datum_of_finite hq, ← infMag32]
  by_cases h : isZero q = true
  · simp [mulDatum, (magnitude_eq_zero q).2 h, h]
  · have hm : magnitude q ≠ 0 := fun e => h ((magnitude_eq_zero q).1 e)
    simp [mulDatum, hm, h, signed32]

theorem fmul_finite_inf {p q : Word} (nan : Word) (hp : isFinite p = true) (hq : isInf q = true) :
    fmul nan p q = if isZero p then nan else signed32 (signField p != signField q) 0x7F800000 := by
  unfold fmul
  rw [datum_of_finite hp, datum_of_inf hq, ← infMag32]
  by_cases h : isZero p = true
  · simp [mulDatum, (magnitude_eq_zero p).2 h, h]
  · have hm : magnitude p ≠ 0 := fun e => h ((magnitude_eq_zero p).1 e)
    simp [mulDatum, hm, h, signed32]

theorem fadd_finite {p q : Word} (nan : Word) (hp : isFinite p = true) (hq : isFinite q = true) :
    fadd nan p q =
      if quanta p + quanta q = 0 then signed32 (signField p && signField q) 0
      else signed32 (decide (quanta p + quanta q < 0)) (roundFinite binary32 (quanta p + quanta q).natAbs 1) := by
  unfold fadd
  rw [datum_of_finite hp, datum_of_finite hq]
  rw [quanta_eq p, quanta_eq q]
  simp only [addDatum, signed32]
  split <;> rfl

theorem fadd_nan_left {p : Word} (nan q : Word) (h : isNaN p = true) : fadd nan p q = nan := by
  unfold fadd
  rw [datum_of_nan h]
  simp [addDatum]

theorem fadd_nan_right {q : Word} (nan p : Word) (h : isNaN q = true) : fadd nan p q = nan := by
  unfold fadd
  rw [datum_of_nan h]
  cases datum binary32 p.toNat <;> simp [addDatum]

theorem fadd_inf_inf {p q : Word} (nan : Word) (hp : isInf p = true) (hq : isInf q = true) :
    fadd nan p q = if signField p = signField q then signed32 (signField p) 0x7F800000 else nan := by
  unfold fadd
  rw [datum_of_inf hp, datum_of_inf hq, ← infMag32]
  by_cases h : signField p = signField q <;> simp [addDatum, h, signed32]

theorem fadd_inf_finite {p q : Word} (nan : Word) (hp : isInf p = true) (hq : isFinite q = true) :
    fadd nan p q = signed32 (signField p) 0x7F800000 := by
  unfold fadd
  rw [datum_of_inf hp, datum_of_finite hq, ← infMag32]
  rfl

theorem fadd_finite_inf {p q : Word} (nan : Word) (hp : isFinite p = true) (hq : isInf q = true) :
    fadd nan p q = signed32 (signField q) 0x7F800000 := by
  unfold fadd
  rw [datum_of_finite hp, datum_of_inf hq, ← infMag32]
  rfl

/-! ## Negation -/

theorem negate_mod (q : Word) : (negate q).toNat % 2 ^ 31 = q.toNat % 2 ^ 31 := by
  rw [← Nat.and_two_pow_sub_one_eq_mod, ← Nat.and_two_pow_sub_one_eq_mod]
  unfold negate
  rw [BitVec.toNat_xor, Nat.and_xor_distrib_right]
  simp

theorem negate_sign (q : Word) : signField (negate q) = !signField q := by
  unfold signField negate
  rw [BitVec.getLsbD_xor]
  simp

@[simp] theorem isFinite_negate (q : Word) : isFinite (negate q) = isFinite q := by
  rw [isFinite_eq, isFinite_eq, negate_mod]

@[simp] theorem isInf_negate (q : Word) : isInf (negate q) = isInf q := by rw [isInf_eq, isInf_eq, negate_mod]

@[simp] theorem isNaN_negate (q : Word) : isNaN (negate q) = isNaN q := by rw [isNaN_eq, isNaN_eq, negate_mod]

@[simp] theorem isZero_negate (q : Word) : isZero (negate q) = isZero q := by rw [isZero_eq, isZero_eq, negate_mod]

theorem quanta_negate (q : Word) : quanta (negate q) = -quanta q := by
  unfold quanta
  rw [negate_sign, magnitude_eq, magnitude_eq, negate_mod]
  cases signField q <;> simp

/-! ## Quiet NaNs -/

theorem quietNaN_toNat_mod (d : BitVec 23) : (quietNaN d).toNat % 2 ^ 31 = 0x7FC00000 + d.toNat % 2 ^ 22 := by
  have hd := d.isLt
  have h : quietNaN d = BitVec.ofNat 32 (d.toNat / 2 ^ 22 * 2 ^ 31 + 0x7FC00000 + d.toNat % 2 ^ 22) := by
    apply BitVec.eq_of_toNat_eq
    unfold quietNaN
    have e1 : (d.extractLsb' 22 1).toNat = d.toNat / 2 ^ 22 := by
      simp [BitVec.extractLsb'_toNat, Nat.shiftRight_eq_div_pow]; omega
    have e2 : (d.extractLsb' 0 22).toNat = d.toNat % 2 ^ 22 := by simp [BitVec.extractLsb'_toNat]
    rw [BitVec.toNat_append, BitVec.toNat_append, BitVec.toNat_append, e1, e2, BitVec.toNat_ofNat]
    have h1 : d.toNat / 2 ^ 22 < 2 := by omega
    have h2 : d.toNat % 2 ^ 22 < 2 ^ 22 := by omega
    generalize d.toNat / 2 ^ 22 = a at *
    generalize d.toNat % 2 ^ 22 = b at *
    rw [Nat.shiftLeft_eq, Nat.shiftLeft_eq, Nat.shiftLeft_eq]
    rw [← Nat.shiftLeft_eq _ 22, ← Nat.shiftLeft_add_eq_or_of_lt h2]
    interval_cases a <;> simp <;> omega
  rw [h, BitVec.toNat_ofNat]
  omega

/-- A drawn NaN is a NaN. -/
theorem isNaN_quietNaN (d : BitVec 23) : isNaN (quietNaN d) = true := by
  rw [isNaN_eq, quietNaN_toNat_mod, decide_eq_true_iff]
  omega

theorem isNaN_drawnNaN (n : Nat) : isNaN (drawnNaN n) = true := isNaN_quietNaN _

/-! ## Zeros and infinities as patterns -/

theorem magPattern_lt {v : Word} (h : isFinite v = true) : v.toNat % 2 ^ 31 < 0x7F800000 := by
  rwa [isFinite_eq, decide_eq_true_iff] at h

theorem isZero_eta {v : Word} (h : isZero v = true) : v = signed32 (signField v) 0 := by
  rw [isZero_eq, decide_eq_true_iff] at h
  rw [← h]; exact (signed32_eta v).symm

theorem isInf_eta {v : Word} (h : isInf v = true) : v = signed32 (signField v) 0x7F800000 := by
  rw [isInf_eq, decide_eq_true_iff] at h
  rw [← h]; exact (signed32_eta v).symm

theorem quanta_eq_zero (v : Word) : quanta v = 0 ↔ isZero v = true := by
  rw [← magnitude_eq_zero]
  unfold quanta
  cases signField v <;> simp

theorem isFinite_of_isZero {v : Word} (h : isZero v = true) : isFinite v = true := by
  rw [isZero_eq, decide_eq_true_iff] at h
  rw [isFinite_eq, decide_eq_true_iff]; omega

theorem isFinite_eq_false (v : Word) : isFinite v = false ↔ isInf v = true ∨ isNaN v = true := by
  rcases class_cases v with ⟨a, b, c⟩ | ⟨a, b, c⟩ | ⟨a, b, c⟩ <;> simp [a, b, c]

theorem not_finite_of_isNaN {v : Word} (h : isNaN v = true) : isFinite v = false := (isFinite_eq_false v).2 (.inr h)

theorem not_nan_of_isFinite {v : Word} (h : isFinite v = true) : isNaN v = false := by
  rcases class_cases v with ⟨a, b, c⟩ | ⟨a, b, c⟩ | ⟨a, b, c⟩ <;> simp_all

theorem not_nan_of_isInf {v : Word} (h : isInf v = true) : isNaN v = false := by
  rcases class_cases v with ⟨a, b, c⟩ | ⟨a, b, c⟩ | ⟨a, b, c⟩ <;> simp_all

/-! ## NaN results -/

theorem fmul_nan_cases (nan p q : Word) : fmul nan p q = nan ∨ isNaN (fmul nan p q) = false := by
  rcases class_cases p with ⟨p1, p2, p3⟩ | ⟨p1, p2, p3⟩ | ⟨p1, p2, p3⟩
  · rcases class_cases q with ⟨q1, q2, q3⟩ | ⟨q1, q2, q3⟩ | ⟨q1, q2, q3⟩
    · right; rw [fmul_finite nan p1 q1]; exact signed32_not_nan _ (roundFinite32_le _ _)
    · rw [fmul_finite_inf nan p1 q2]; split
      · left; rfl
      · right; exact signed32_not_nan _ (by omega)
    · left; exact fmul_nan_right nan p q3
  · rcases class_cases q with ⟨q1, q2, q3⟩ | ⟨q1, q2, q3⟩ | ⟨q1, q2, q3⟩
    · rw [fmul_inf_finite nan p2 q1]; split
      · left; rfl
      · right; exact signed32_not_nan _ (by omega)
    · right; rw [fmul_inf_inf nan p2 q2]; exact signed32_not_nan _ (by omega)
    · left; exact fmul_nan_right nan p q3
  · left; exact fmul_nan_left nan q p3

theorem fadd_nan_cases (nan p q : Word) : fadd nan p q = nan ∨ isNaN (fadd nan p q) = false := by
  rcases class_cases p with ⟨p1, p2, p3⟩ | ⟨p1, p2, p3⟩ | ⟨p1, p2, p3⟩
  · rcases class_cases q with ⟨q1, q2, q3⟩ | ⟨q1, q2, q3⟩ | ⟨q1, q2, q3⟩
    · right; rw [fadd_finite nan p1 q1]; split
      · exact signed32_not_nan _ (by omega)
      · exact signed32_not_nan _ (roundFinite32_le _ _)
    · rw [fadd_finite_inf nan p1 q2]; right; exact signed32_not_nan _ (by omega)
    · left; exact fadd_nan_right nan p q3
  · rcases class_cases q with ⟨q1, q2, q3⟩ | ⟨q1, q2, q3⟩ | ⟨q1, q2, q3⟩
    · rw [fadd_inf_finite nan p2 q1]; right; exact signed32_not_nan _ (by omega)
    · rw [fadd_inf_inf nan p2 q2]; split
      · right; exact signed32_not_nan _ (by omega)
      · left; rfl
    · left; exact fadd_nan_right nan p q3
  · left; exact fadd_nan_left nan q p3

theorem isNaN_fmul (n : Nat) {p q : Word} (h : isNaN p = true ∨ isNaN q = true) : isNaN (fmul (drawnNaN n) p q) = true := by
  rcases h with h | h
  · rw [fmul_nan_left _ _ h]; exact isNaN_drawnNaN n
  · rw [fmul_nan_right _ _ h]; exact isNaN_drawnNaN n

theorem isNaN_fadd (n : Nat) {p q : Word} (h : isNaN p = true ∨ isNaN q = true) : isNaN (fadd (drawnNaN n) p q) = true := by
  rcases h with h | h
  · rw [fadd_nan_left _ _ h]; exact isNaN_drawnNaN n
  · rw [fadd_nan_right _ _ h]; exact isNaN_drawnNaN n

theorem isNaN_fsub (n : Nat) {p q : Word} (h : isNaN p = true ∨ isNaN q = true) : isNaN (fsub (drawnNaN n) p q) = true :=
  isNaN_fadd n (by simpa using h)

theorem not_nan_fmul_of_finite (nan : Word) {p q : Word} (hp : isFinite p = true) (hq : isFinite q = true) : isNaN (fmul nan p q) = false := by
  rw [fmul_finite nan hp hq]; exact signed32_not_nan _ (roundFinite32_le _ _)

/-! ## Non-finite operands -/

theorem fmul_not_finite (n : Nat) (p q : Word) (h : isFinite p = false ∨ isFinite q = false) : isFinite (fmul (drawnNaN n) p q) = false := by
  have hd := not_finite_of_isNaN (isNaN_drawnNaN n)
  rcases class_cases p with ⟨p1, p2, p3⟩ | ⟨p1, p2, p3⟩ | ⟨p1, p2, p3⟩
  · rcases class_cases q with ⟨q1, q2, q3⟩ | ⟨q1, q2, q3⟩ | ⟨q1, q2, q3⟩
    · simp [p1, q1] at h
    · rw [fmul_finite_inf _ p1 q2]; split
      · exact hd
      · rw [signed32_finite _ (by omega)]; simp
    · rw [fmul_nan_right _ _ q3]; exact hd
  · rcases class_cases q with ⟨q1, q2, q3⟩ | ⟨q1, q2, q3⟩ | ⟨q1, q2, q3⟩
    · rw [fmul_inf_finite _ p2 q1]; split
      · exact hd
      · rw [signed32_finite _ (by omega)]; simp
    · rw [fmul_inf_inf _ p2 q2, signed32_finite _ (by omega)]; simp
    · rw [fmul_nan_right _ _ q3]; exact hd
  · rw [fmul_nan_left _ _ p3]; exact hd

theorem fadd_not_finite (n : Nat) (p q : Word) (h : isFinite p = false ∨ isFinite q = false) : isFinite (fadd (drawnNaN n) p q) = false := by
  have hd := not_finite_of_isNaN (isNaN_drawnNaN n)
  rcases class_cases p with ⟨p1, p2, p3⟩ | ⟨p1, p2, p3⟩ | ⟨p1, p2, p3⟩
  · rcases class_cases q with ⟨q1, q2, q3⟩ | ⟨q1, q2, q3⟩ | ⟨q1, q2, q3⟩
    · simp [p1, q1] at h
    · rw [fadd_finite_inf _ p1 q2, signed32_finite _ (by omega)]; simp
    · rw [fadd_nan_right _ _ q3]; exact hd
  · rcases class_cases q with ⟨q1, q2, q3⟩ | ⟨q1, q2, q3⟩ | ⟨q1, q2, q3⟩
    · rw [fadd_inf_finite _ p2 q1, signed32_finite _ (by omega)]; simp
    · rw [fadd_inf_inf _ p2 q2]; split
      · rw [signed32_finite _ (by omega)]; simp
      · exact hd
    · rw [fadd_nan_right _ _ q3]; exact hd
  · rw [fadd_nan_left _ _ p3]; exact hd

theorem fsub_not_finite (n : Nat) (p q : Word) (h : isFinite p = false ∨ isFinite q = false) : isFinite (fsub (drawnNaN n) p q) = false :=
  fadd_not_finite n p _ (by simpa using h)

theorem clamp_not_finite {v : Word} (h : isFinite v = false) : isFinite (clamp v) = false := by
  have : isSubnormal v = false := by
    rw [isFinite_eq, decide_eq_false_iff_not] at h
    rw [isSubnormal_eq, decide_eq_false_iff_not]; omega
  rw [clamp_of_not_subnormal this]; exact h

theorem isNaN_clamp {v : Word} (h : isNaN v = true) : isNaN (clamp v) = true := by
  have : isSubnormal v = false := by
    rw [isNaN_eq, decide_eq_true_iff] at h
    rw [isSubnormal_eq, decide_eq_false_iff_not]; omega
  rw [clamp_of_not_subnormal this]; exact h

/-! ## Exact results -/

theorem fmul_zero_left (nan : Word) {p q : Word} (hp : isZero p = true) (hq : isFinite q = true) : isZero (fmul nan p q) = true := by
  rw [fmul_finite nan (isFinite_of_isZero hp) hq, (magnitude_eq_zero p).2 hp, zero_mul, isZero_eq, signed32_mod _ (roundFinite32_le _ _)]
  decide

theorem fmul_zero_right (nan : Word) {p q : Word} (hp : isFinite p = true) (hq : isZero q = true) : isZero (fmul nan p q) = true := by
  rw [fmul_finite nan hp (isFinite_of_isZero hq), (magnitude_eq_zero q).2 hq, mul_zero, isZero_eq, signed32_mod _ (roundFinite32_le _ _)]
  decide

theorem roundFinite_magnitude (v : Word) (h : isFinite v = true) {den : Nat} (hd : 0 < den) : roundFinite binary32 (magnitude v * den) den = v.toNat % 2 ^ 31 := by
  have := magPattern_lt h
  have hi := infMag32
  unfold roundFinite
  rw [magnitude_eq, roundMag_exact _ _ hd]
  omega

theorem fadd_zero_right (nan : Word) {p q : Word} (hp0 : isZero p = false) (hpn : isNaN p = false) (hq : isZero q = true) : fadd nan p q = p := by
  rcases class_cases p with ⟨p1, p2, p3⟩ | ⟨p1, p2, p3⟩ | ⟨p1, p2, p3⟩
  · rw [fadd_finite nan p1 (isFinite_of_isZero hq), (quanta_eq_zero q).2 hq, add_zero]
    have : quanta p ≠ 0 := by rw [Ne, quanta_eq_zero]; simp [hp0]
    rw [if_neg this]
    have hm : (quanta p).natAbs = magnitude p := by unfold quanta; cases signField p <;> simp
    have hs : decide (quanta p < 0) = signField p := by
      unfold quanta at *; cases signField p <;> simp at * <;> omega
    rw [hm, hs]
    have := roundFinite_magnitude p p1 (den := 1) (by omega)
    rw [mul_one] at this
    rw [this, signed32_eta]
  · rw [fadd_inf_finite nan p2 (isFinite_of_isZero hq), ← isInf_eta p2]
  · simp [p3] at hpn

theorem fsub_zero_right (nan : Word) {p q : Word} (hp0 : isZero p = false) (hpn : isNaN p = false) (hq : isZero q = true) : fsub nan p q = p :=
  fadd_zero_right nan hp0 hpn (by simpa using hq)

theorem fadd_zeros (nan : Word) {p q : Word} (hp : isZero p = true) (hq : isZero q = true) : isZero (fadd nan p q) = true := by
  rw [fadd_finite nan (isFinite_of_isZero hp) (isFinite_of_isZero hq), (quanta_eq_zero p).2 hp, (quanta_eq_zero q).2 hq]
  rw [if_pos (by simp), isZero_eq, signed32_mod _ (by omega)]; rfl

theorem fsub_zeros (nan : Word) {p q : Word} (hp : isZero p = true) (hq : isZero q = true) : isZero (fsub nan p q) = true :=
  fadd_zeros nan hp (by simpa using hq)

theorem clamp_zero {v : Word} (h : isZero v = true) : clamp v = v := by
  apply clamp_of_not_subnormal
  rw [isZero_eq, decide_eq_true_iff] at h
  rw [isSubnormal_eq, decide_eq_false_iff_not]; omega

theorem magnitude_one : magnitude one = 2^149 := by decide

theorem fmul_one_right (nan : Word) {p : Word} (hp : isNaN p = false) : fmul nan p one = p := by
  have ho : isFinite one = true := by decide
  have hs : signField one = false := by decide
  rcases class_cases p with ⟨p1, p2, p3⟩ | ⟨p1, p2, p3⟩ | ⟨p1, p2, p3⟩
  · rw [fmul_finite nan p1 ho, magnitude_one, roundFinite_magnitude p p1 (by positivity), hs]
    simp only [Bool.bne_false, signed32_eta]
  · rw [fmul_inf_finite nan p2 ho, if_neg (by decide), hs]
    simp; exact (isInf_eta p2).symm
  · simp [p3] at hp

theorem fmul_one_left (nan : Word) {p : Word} (hp : isNaN p = false) : fmul nan one p = p := by
  have ho : isFinite one = true := by decide
  have hs : signField one = false := by decide
  rcases class_cases p with ⟨p1, p2, p3⟩ | ⟨p1, p2, p3⟩ | ⟨p1, p2, p3⟩
  · rw [fmul_finite nan ho p1, magnitude_one, mul_comm, roundFinite_magnitude p p1 (by positivity), hs]
    simp only [Bool.false_bne, signed32_eta]
  · rw [fmul_finite_inf nan ho p2, if_neg (by decide), hs]
    simp; exact (isInf_eta p2).symm
  · simp [p3] at hp

/-! ## Which patterns are quiet NaNs -/

theorem isQuietNaN_eq (v : Word) : isQuietNaN v = decide (0x7FC00000 ≤ v.toNat % 2 ^ 31) := by
  unfold isQuietNaN
  rw [isNaN_eq, BitVec.getLsbD, Nat.testBit_eq_decide_div_mod_eq, Bool.eq_iff_iff]
  simp only [Bool.and_eq_true, decide_eq_true_iff]
  have := v.isLt
  omega

theorem isQuietNaN_quietNaN (d : BitVec 23) : isQuietNaN (quietNaN d) = true := by
  rw [isQuietNaN_eq, quietNaN_toNat_mod, decide_eq_true_iff]; omega

end Sys2Proof.Machine
end

