-- ==== Sys2Proof/Laws/Float64.lean ====
section
/-! SUPPORT. binary64: what patterns denote, comparison, the frequency clamp, and NaN operands. -/

namespace Sys2Proof.Machine

theorem signWeight64 : signWeight binary64 = 2 ^ 63 := by decide

theorem infMag64 : infMag binary64 = 0x7FF0000000000000 := by decide +kernel

theorem isNaN64_iff (v : Binary64) : isNaN64 v = true ↔ datum binary64 v.toNat = .nan := by
  unfold isNaN64; exact beq_iff_eq

theorem datum64_zero : datum binary64 0 = .fin false 0 := by decide +kernel

theorem datum64_fin {v : Binary64} {s u} (h : datum binary64 v.toNat = .fin s u) :
    v.toNat % 2^63 < 0x7FF0000000000000 ∧ u = magUnits binary64 (v.toNat % 2^63) ∧ s = (v.toNat / 2^63 % 2 == 1) := by
  unfold datum at h; simp only [signWeight64, infMag64] at h
  split at h
  · cases h; exact ⟨‹_›, rfl, rfl⟩
  · split at h <;> cases h

theorem datum64_inf {v : Binary64} {s} (h : datum binary64 v.toNat = .inf s) :
    v.toNat % 2^63 = 0x7FF0000000000000 ∧ s = (v.toNat / 2^63 % 2 == 1) := by
  unfold datum at h; simp only [signWeight64, infMag64] at h
  split at h
  · cases h
  · split at h
    · cases h; exact ⟨‹_›, rfl⟩
    · cases h

theorem magUnits64_inj {m n : Nat} (h : magUnits binary64 m = magUnits binary64 n) : m = n := by
  have a := roundMag_exact binary64 m (den := 1) (by omega)
  have b := roundMag_exact binary64 n (den := 1) (by omega)
  rw [h, b] at a; exact a.symm

theorem toNat64_split (v : Binary64) : v.toNat = (if (v.toNat / 2^63 % 2 == 1) then 2^63 else 0) + v.toNat % 2^63 := by
  have := v.isLt
  by_cases h : v.toNat / 2^63 % 2 = 1
  · rw [if_pos (by rw [h]; rfl)]; omega
  · rw [if_neg (by simpa using h)]; omega

theorem eq64_zero_iff (v : Binary64) : eq64 v 0#64 = true ↔ ∃ s, datum binary64 v.toNat = .fin s 0 := by
  unfold eq64
  rw [show (0#64).toNat = 0 from rfl, datum64_zero]
  cases hd : datum binary64 v.toNat with
  | nan => simp [eqDatum]
  | inf s => simp [eqDatum]
  | fin s m => cases s <;> simp [eqDatum, signedUnits]

theorem le64_total {p q : Binary64} (h : le64 p q = false) (hq : isNaN64 q = false) : isNaN64 p = true ∨ le64 q p = true := by
  unfold isNaN64 at *
  unfold le64 at *
  cases hd : datum binary64 p.toNat with
  | nan => left; rfl
  | inf s =>
    right
    cases he : datum binary64 q.toNat with
    | nan => rw [he] at hq; cases hq
    | inf t => rw [hd, he] at h; cases s <;> cases t <;> simp [leDatum] at *
    | fin t n => rw [hd, he] at h; cases s <;> simp [leDatum] at *
  | fin s m =>
    right
    cases he : datum binary64 q.toNat with
    | nan => rw [he] at hq; cases hq
    | inf t => rw [hd, he] at h; cases t <;> simp [leDatum] at *
    | fin t n => rw [hd, he] at h; simp [leDatum] at *; omega

theorem le64_trans {p q r : Binary64} (h1 : le64 p q = true) (h2 : le64 q r = true) : le64 p r = true := by
  unfold le64 at *
  cases hp : datum binary64 p.toNat <;> cases hq : datum binary64 q.toNat <;> cases hr : datum binary64 r.toNat <;>
    simp only [hp, hq, hr] at h1 h2 ⊢ <;> simp [leDatum] at * <;> first | omega | (simp_all) | skip
  all_goals (rename_i a b c; cases a <;> cases b <;> cases c <;> simp_all)

theorem clampFrequency_floor (fl f : Binary64) (h1 : le64 fl fl = true) (h2 : isNaN64 fl = false) :
    le64 fl (clampFrequency fl f) = true ∨ (isNaN64 f = true ∧ clampFrequency fl f = f) := by
  unfold clampFrequency
  by_cases h : le64 f fl = true
  · left; rw [if_pos h]; exact h1
  · rw [if_neg h]
    rcases le64_total (by simpa using h) h2 with h | h
    · exact .inr ⟨h, rfl⟩
    · exact .inl h

theorem datum64_withSign (s : Bool) {m : Nat} (h : m ≤ 0x7FF0000000000000) :
    datum binary64 (BitVec.ofNat 64 (withSign binary64 s m)).toNat = if m < 0x7FF0000000000000 then .fin s (magUnits binary64 m) else .inf s := by
  have e : (BitVec.ofNat 64 (withSign binary64 s m)).toNat = (if s then 2^63 else 0) + m := by
    unfold withSign; rw [signWeight64, BitVec.toNat_ofNat]
    cases s <;> simp <;> omega
  rw [e]
  unfold datum; simp only [signWeight64, infMag64]
  have h1 : ((if s then 2^63 else 0) + m) % 2^63 = m := by cases s <;> simp <;> omega
  have h2 : ((if s then 2^63 else 0) + m) / 2^63 % 2 = if s then 1 else 0 := by cases s <;> simp <;> omega
  rw [h1, h2]
  split
  · cases s <;> rfl
  · rw [if_pos (by omega)]; cases s <;> rfl

theorem roundFinite64_le (num den) : roundFinite binary64 num den ≤ 0x7FF0000000000000 := by rw [← infMag64]; exact roundFinite_le _ _ _

theorem magUnits64_one : magUnits binary64 0x3FF0000000000000 = quantaPerOne binary64 := by decide +kernel

theorem ofNat_toNat64 (v : Binary64) : BitVec.ofNat 64 v.toNat = v := by simp

theorem isNaN64_quietNaN64 (d : BitVec 52) : isNaN64 (quietNaN64 d) = true := by
  rw [isNaN64_iff]
  have hd := d.isLt
  have : (quietNaN64 d).toNat % 2^63 > 0x7FF0000000000000 := by
    have e : quietNaN64 d = BitVec.ofNat 64 (d.toNat / 2^51 * 2^63 + 0x7FF8000000000000 + d.toNat % 2^51) := by
      apply BitVec.eq_of_toNat_eq
      unfold quietNaN64
      have e1 : (d.extractLsb' 51 1).toNat = d.toNat / 2 ^ 51 := by
        simp [BitVec.extractLsb'_toNat, Nat.shiftRight_eq_div_pow]; omega
      have e2 : (d.extractLsb' 0 51).toNat = d.toNat % 2 ^ 51 := by simp [BitVec.extractLsb'_toNat]
      rw [BitVec.toNat_append, BitVec.toNat_append, BitVec.toNat_append, e1, e2, BitVec.toNat_ofNat]
      have h1 : d.toNat / 2 ^ 51 < 2 := by omega
      have h2 : d.toNat % 2 ^ 51 < 2 ^ 51 := by omega
      generalize d.toNat / 2 ^ 51 = a at *
      generalize d.toNat % 2 ^ 51 = b at *
      rw [Nat.shiftLeft_eq, Nat.shiftLeft_eq, Nat.shiftLeft_eq]
      rw [← Nat.shiftLeft_eq _ 51, ← Nat.shiftLeft_add_eq_or_of_lt h2]
      interval_cases a <;> simp <;> omega
    rw [e, BitVec.toNat_ofNat]; omega
  unfold datum; simp only [signWeight64, infMag64]
  rw [if_neg (by omega), if_neg (by omega)]

theorem isNaN64_div64 (d) (x y : Binary64) (h : isNaN64 x = true ∨ isNaN64 y = true) : isNaN64 (div64 (quietNaN64 d) x y) = true := by
  unfold div64
  rw [isNaN64_iff, isNaN64_iff] at h
  rcases h with h | h
  · rw [h]; simp only [divDatum, ofNat_toNat64]; exact isNaN64_quietNaN64 d
  · rw [h]; cases datum binary64 x.toNat <;> simp only [divDatum, ofNat_toNat64] <;> exact isNaN64_quietNaN64 d

theorem isNaN64_mul64 (d) (x y : Binary64) (h : isNaN64 x = true ∨ isNaN64 y = true) : isNaN64 (mul64 (quietNaN64 d) x y) = true := by
  unfold mul64
  rw [isNaN64_iff, isNaN64_iff] at h
  rcases h with h | h
  · rw [h]; simp only [mulDatum, ofNat_toNat64]; exact isNaN64_quietNaN64 d
  · rw [h]; cases datum binary64 x.toNat <;> simp only [mulDatum, ofNat_toNat64] <;> exact isNaN64_quietNaN64 d

theorem isNaN64_add64 (d) (x y : Binary64) (h : isNaN64 x = true ∨ isNaN64 y = true) : isNaN64 (add64 (quietNaN64 d) x y) = true := by
  unfold add64
  rw [isNaN64_iff, isNaN64_iff] at h
  rcases h with h | h
  · rw [h]; simp only [addDatum, ofNat_toNat64]; exact isNaN64_quietNaN64 d
  · rw [h]; cases datum binary64 x.toNat <;> simp only [addDatum, ofNat_toNat64] <;> exact isNaN64_quietNaN64 d

end Sys2Proof.Machine
end

