-- ==== Sys2Proof/Laws/PerInstr.lean ====
section
/-! SUPPORT. Facts about every instruction as syntax, one lemma for each constructor. -/

namespace Sys2Proof.Laws.OpField

/-- The encoded word carries the instruction's code in `op`, and the instruction is well formed (R46, R50). -/
def Statement (i : Instr) : Prop := opField (encode i) = opcode i ∧ i.wellFormed = true

theorem nop : Statement .nop := ⟨opField_assembleCmd _ _ _, rfl⟩

theorem process (sample : Word) : Statement (.process sample) := ⟨opField_assembleCmd _ _ _, rfl⟩

theorem load (a0 a1 a2 b1 b2 : Word) : Statement (.load a0 a1 a2 b1 b2) := ⟨opField_assembleCmd _ _ _, rfl⟩

theorem reset : Statement .reset := ⟨opField_assembleCmd _ _ _, rfl⟩

end Sys2Proof.Laws.OpField
end

