-- ==== Sys2Proof/Tests/Slice0.lean ====
section
/-! SUPPORT. Tests: words and vectors of the spec (95_test_vectors.md, 30_encoding.md), the checks of WellFormed, and for
each statement with hypotheses a state and operands that meet them. -/

namespace Sys2Proof.Tests

set_option Elab.async false

open Sys2Proof.Machine

/-! ## Helpers -/

/-- The launch state with another cell in it. -/
def withCell (c : Cell) : State := { State.reset with cell := c }

/-- A cell from its coefficients, its history and its flag. -/
def cellOf (k : Coeffs) (x1 x2 y1 y2 : Word) (valid : Bool) : Cell :=
  ⟨k.a0, k.a1, k.a2, k.b1, k.b2, x1, x2, y1, y2, valid⟩

def idCoeffs : Coeffs := ⟨0x3F800000#32, 0#32, 0#32, 0#32, 0#32⟩

/-- The cell a step leaves. -/
def cellAfter : Host.Outcome State Fault Refusal → Option Cell
  | .next t => some t.cell
  | .fault _ => none
  | .refused _ => none

def refusalOf : Host.Outcome State Fault Refusal → Option Refusal
  | .next _ => none
  | .fault _ => none
  | .refused r => some r

/-- What PROCESS of `x` presents on `dout` from these coefficients and this history. -/
def output (k : Coeffs) (x1 x2 y1 y2 x : Word) : Option Word :=
  (cellAfter (exec (.process x) (withCell (cellOf k x1 x2 y1 y2 false)))).map Cell.dout

/-! ## Decoding: words written out from R45 and R46 -/

/-- `op = 00`, and every other bit 0. -/
theorem test_decode_nop : decode 0x0#194 = .nop := by decide

/-- `op = 01`, `din = 3FC00000` in `cmd[33:2]` (P-A). -/
theorem test_decode_process : decode (0#160 ++ 0x3FC00000#32 ++ 0b01#2) = .process 0x3FC00000#32 := by decide

/-- `op = 10`; lanes `b2 b1 a2 a1 a0` from the top of `cmd` down (V-E1, P-B). -/
theorem test_decode_load :
    decode (0x3F6A34C8#32 ++ 0xBFF30196#32 ++ 0x3B863376#32 ++ 0x3C063376#32 ++ 0x3B863376#32 ++ 0#32 ++ 0b10#2) =
      .load 0x3B863376#32 0x3C063376#32 0x3B863376#32 0xBFF30196#32 0x3F6A34C8#32 := by decide

/-- `op = 11`; `din` and `coef` are ignored (R49). -/
theorem test_decode_reset : decode (0xFFFFFFFF#32 ++ 0#128 ++ 0x12345678#32 ++ 0b11#2) = .reset := by decide

/-- A number with bit 194 set is no command (R45, R52). -/
theorem test_decode_longer : decodeTableWord 200 (2 ^ 194) = none ∧ decodeTableWord 200 3 = some .reset := by decide

/-- A table word runs as the first instruction after reset. -/
theorem test_fetched_word_runs :
    cellAfter (step (State.reset.withFetchWord 194 0xFE000001)) =
      cellAfter (exec (.process 0x3F800000#32) State.reset) := by decide +kernel

/-! ## WellFormed: each check refuses an ill-formed term -/

theorem test_wf_type_code_6 : (Input.band (.setType 6#3)).wellFormed = false := by decide

theorem test_wf_type_code_7 : (Input.equalizer (.setBandParams 0 7#3 0#64 0#64 0#64)).wellFormed = false := by decide

theorem test_wf_no_channel : (BandOp.init 0#64 0 0#3 0#64 0#64 0#64).wellFormed = false := by decide

theorem test_wf_nine_channels : (EqualizerOp.init 0#64 1 9).wellFormed = false := by decide

theorem test_wf_no_band : (EqualizerOp.init 0#64 0 1).wellFormed = false := by decide

theorem test_wf_accepts :
    (Input.band (.init 0#64 8 5#3 0#64 0#64 0#64)).wellFormed = true ∧
    (Input.equalizer (.init 0#64 1 1)).wellFormed = true ∧ ∀ op : BitVec 2, (decode (assembleCmd op 0#32 0#160)).wellFormed = true := by
  decide

/-! ## The four commands and INIT -/

/-- V-N1. -/
theorem test_nop :
    cellAfter (exec .nop (withCell (cellOf idCoeffs 0#32 0#32 0x3F800000#32 0#32 true))) =
      some (cellOf idCoeffs 0#32 0#32 0x3F800000#32 0#32 false) := by decide

/-- V-P3: all five terms, and the whole new history. -/
theorem test_process :
    cellAfter (exec (.process 0x40400000#32)
      (withCell (cellOf ⟨0x3F000000#32, 0x3E800000#32, 0x3E000000#32, 0xBF000000#32, 0x3E800000#32⟩
        0x3F800000#32 0x40000000#32 0x3F800000#32 0x40000000#32 false))) =
      some (cellOf ⟨0x3F000000#32, 0x3E800000#32, 0x3E000000#32, 0xBF000000#32, 0x3E800000#32⟩
        0x40400000#32 0x3F800000#32 0x40000000#32 0x3F800000#32 true) := by decide +kernel

/-- V-P5, V-P6, V-P7, V-P8, V-P9, V-P10, V-CL2, V-CL3, V-CL4 (next step), V-CL6. -/
theorem test_process_outputs :
    output idCoeffs 0xBF800000#32 0xBF800000#32 0x3F800000#32 0x3F800000#32 0x80000000#32 = some 0x80000000#32 ∧
    output ⟨0xBF800000#32, 0xBF800000#32, 0xBF800000#32, 0#32, 0#32⟩ 0#32 0#32 0#32 0#32 0#32 = some 0x80000000#32 ∧
    output ⟨one, one, one, 0#32, 0#32⟩ 0x33800000#32 0x33800000#32 0#32 0#32 one = some one ∧
    output ⟨0x3F800001#32, 0#32, 0#32, 0#32, 0#32⟩ 0#32 0#32 0#32 0#32 0x3F800001#32 = some 0x3F800002#32 ∧
    output ⟨one, 0#32, 0#32, one, 0#32⟩ 0#32 0#32 one 0#32 one = some 0#32 ∧
    output ⟨0x40000000#32, 0#32, 0#32, 0#32, 0#32⟩ 0#32 0#32 0#32 0#32 0x7F7FFFFF#32 = some 0x7F800000#32 ∧
    output idCoeffs 0#32 0#32 0#32 0#32 0x80400000#32 = some 0#32 ∧
    output idCoeffs 0#32 0#32 0#32 0#32 0x80800000#32 = some 0x80800000#32 ∧
    output ⟨0x3F000000#32, 0#32, 0#32, 0#32, 0xBF800000#32⟩ 0x00800000#32 0x00800000#32 0#32 0x00800000#32 0#32 =
      some 0x00800000#32 ∧
    output ⟨0#32, 0#32, 0#32, 0#32, 0x3F000000#32⟩ 0#32 0#32 0#32 0x80800000#32 0#32 = some 0#32 := by
  decide +kernel

/-- V-L2: the coefficients change, the history and `dout` do not. -/
theorem test_load :
    cellAfter (exec (.load 0#32 0x3F800000#32 0#32 0#32 0#32)
      (withCell (cellOf idCoeffs 0x3F800000#32 0#32 0x3F000000#32 0#32 true))) =
      some (cellOf ⟨0#32, 0x3F800000#32, 0#32, 0#32, 0#32⟩ 0x3F800000#32 0#32 0x3F000000#32 0#32 false) := by decide

/-- V-R1. -/
theorem test_reset :
    cellAfter (exec .reset (withCell (cellOf ⟨0x3F000000#32, 0#32, 0#32, 0#32, 0#32⟩ one 0#32 0x3F000000#32 0#32 true))) =
      some (cellOf ⟨0x3F000000#32, 0#32, 0#32, 0#32, 0#32⟩ 0#32 0#32 0#32 0#32 false) := by decide

/-- V-I2: the PROCESS on the other ports is discarded. -/
theorem test_init :
    cellAfter (stepPort ⟨true, 0b01#2, 0x3F800000#32, 0#160⟩ (withCell (cellOf ⟨one, one, one, one, one⟩ one one one one true))) =
      some (cellOf idCoeffs 0#32 0#32 0#32 0#32 false) := by decide

/-! ## The engine: V-E1, V-E3, V-E5 and V-E6 under the default `COEF_ARITH` -/

/-- The host's function library at the arguments of these vectors: W1 gives sine and cosine of ω; the others are CPython's
`math` module, as R75 says. -/
def tableLibrary : HostLibrary where
  sin v :=
    if v = 0x3FC0C152382D7365#64 then 0x3FC0B5150F6DA2D0#64
    else if v = 0x3FD63E82955E092B#64 then 0x3FD5CC8CB0BF4EB8#64 else 0#64
  cos v := if v = 0x3FC0C152382D7365#64 then 0x3FEFB9EA92EC689B#64 else 0#64
  ln v := if v = 0x4000000000000000#64 then 0x3FE62E42FEFA39EF#64 else 0#64
  pow10 v :=
    if v = 0x3FC3333333333333#64 then 0x3FF699C0F7E86E10#64
    else if v = 0#64 then 0x3FF0000000000000#64 else 0#64
  nan64 := 0#52
  nan32 := 0#23

/-- The engine at 48000 Hz, 1000 Hz, one octave. -/
def engineAt (type : FilterType) (gainDb : Binary64) : Coeffs :=
  coeffsWith (roundedWith (defaultArith tableLibrary)) type 0x408F400000000000#64 0x40E7700000000000#64
    0x3FF0000000000000#64 gainDb

theorem test_engine_lowpass :
    engineAt .lowpass 0#64 = ⟨0x3B863376#32, 0x3C063376#32, 0x3B863376#32, 0xBFF30196#32, 0x3F6A34C8#32⟩ := by
  decide +kernel

theorem test_engine_highpass :
    engineAt .highpass 0#64 = ⟨0x3F740DFD#32, 0xBFF40DFD#32, 0x3F740DFD#32, 0xBFF30196#32, 0x3F6A34C8#32⟩ := by
  decide +kernel

theorem test_engine_bandpass :
    engineAt .bandpass 0#64 = ⟨0x3D2E59C1#32, 0x00000000#32, 0xBD2E59C1#32, 0xBFF30196#32, 0x3F6A34C8#32⟩ := by
  decide +kernel

theorem test_engine_notch :
    engineAt .notch 0#64 = ⟨0x3F751A64#32, 0xBFF30196#32, 0x3F751A64#32, 0xBFF30196#32, 0x3F6A34C8#32⟩ := by
  decide +kernel

/-- +6 dB. -/
theorem test_engine_parametric :
    engineAt .parametricEQ 0x4018000000000000#64 =
      ⟨0x3F83E324#32, 0xBFF610B0#32, 0x3F689A37#32, 0xBFF610B0#32, 0x3F70607F#32⟩ := by decide +kernel

theorem test_engine_allpass :
    engineAt .allPass 0#64 = ⟨0x3F6A34C8#32, 0xBFF30196#32, 0x3F800000#32, 0xBFF30196#32, 0x3F6A34C8#32⟩ := by
  decide +kernel

/-! ## The controller -/

/-- A band with the given cells. -/
def bandOf (enabled : Bool) (cells : List Cell) : Band where
  initialised := true
  filterType := .lowpass
  frequencyHz := 0x408F400000000000#64
  bandwidthOctaves := 0x3FF0000000000000#64
  gainDb := 0#64
  enabled := enabled
  sampleRateHz := 0x40E7700000000000#64
  channelCount := cells.length
  cells := cells

/-- A cascade of the given bands. -/
def equalizerOf (channelCount : Nat) (bands : List Band) : Equalizer where
  initialised := true
  bandCount := bands.length
  channelCount := channelCount
  sampleRateHz := 0x40E7700000000000#64
  bands := bands

/-- The launch state with an initialised band of one fresh cell. -/
def withBand (enabled : Bool) : State := { State.reset with band := bandOf enabled [Cell.fresh] }

/-- The launch state with an initialised cascade of one disabled band of two fresh cells. -/
def withEqualizer : State :=
  { State.reset with equalizer := equalizerOf 2 [bandOf false [Cell.fresh, Cell.fresh]] }

/-- W3: a disabled band passes a signalling NaN and the smallest subnormal bit for bit. -/
theorem test_bypass :
    (bandOf false [Cell.fresh, Cell.fresh]).processFrame 0 [0x7FC00001#32, 0x00000001#32] =
      (bandOf false [Cell.fresh, Cell.fresh], [0x7FC00001#32, 0x00000001#32]) := by decide

/-- R92 and R106: two enabled bands of one identity cell each pass `1.5`, and both cells now hold it. -/
theorem test_cascade :
    processBands 0 [bandOf true [Cell.fresh], bandOf true [Cell.fresh]] [0x3FC00000#32] =
      ([bandOf true [cellOf idCoeffs 0x3FC00000#32 0#32 0x3FC00000#32 0#32 true],
        bandOf true [cellOf idCoeffs 0x3FC00000#32 0#32 0x3FC00000#32 0#32 true]], [0x3FC00000#32]) := by decide +kernel

/-- R94, R97, C2: the stored 1000 Hz is no change; −1 Hz is stored as 0 Hz by `setFrequency`, and 10 Hz stays 10 Hz. -/
theorem test_set_frequency :
    (bandOf true []).setFrequency 0x408F400000000000#64 = bandOf true [] ∧
    ((bandOf true []).setFrequency 0xBFF0000000000000#64).frequencyHz = 0#64 ∧
    ((bandOf true []).setFrequency 0x4024000000000000#64).frequencyHz = 0x4024000000000000#64 := by decide +kernel

/-- R91: `init` stores 10 Hz as 20 Hz. -/
theorem test_init_floor :
    (Band.init 0x40E7700000000000#64 1 .lowpass 0x4024000000000000#64 0#64 0#64).frequencyHz = 0x4034000000000000#64 := by
  decide +kernel

/-! ## Text (R53 to R55) -/

theorem test_assemble_directive : assembleLine "  .init   ; one step".toList = .ok [initPort] := by decide +kernel

theorem test_assemble_literals :
    readOperand "-2.0".toList = some 0xC0000000#32 ∧ readOperand "-0".toList = some 0x80000000#32 ∧
    readOperand "1e-3".toList = some 0x3A83126F#32 ∧ readOperand "nan".toList = some 0x7FC00000#32 ∧
    readOperand "-inf".toList = some 0xFF800000#32 ∧ readOperand "0x7f7FFFFF".toList = some 0x7F7FFFFF#32 ∧
    readOperand "0x123".toList = none := by decide +kernel

/-! ## Witnesses: the hypotheses of each statement can be met

A statement whose only hypothesis is `initialised = true` has `witness_initialised`. -/

theorem witness_initialised : State.reset.initialised = true := rfl

theorem witness_UnusedBusesAreIgnored :
    (∃ p q : Port, p ≠ q ∧ p.init = false ∧ q.init = false ∧ p.op = q.op ∧ p.op = 0b00#2) ∧
    (∃ p q : Port, p ≠ q ∧ p.init = false ∧ q.init = false ∧ p.op = q.op ∧ p.op = 0b01#2 ∧ p.din = q.din) ∧
    (∃ p q : Port, p ≠ q ∧ p.init = false ∧ q.init = false ∧ p.op = q.op ∧ p.op = 0b10#2 ∧ p.coef = q.coef) :=
  ⟨⟨⟨false, 0b00#2, 1#32, 1#160⟩, ⟨false, 0b00#2, 2#32, 2#160⟩, by decide⟩,
   ⟨⟨false, 0b01#2, 1#32, 1#160⟩, ⟨false, 0b01#2, 1#32, 2#160⟩, by decide⟩,
   ⟨⟨false, 0b10#2, 1#32, 1#160⟩, ⟨false, 0b10#2, 2#32, 1#160⟩, by decide⟩⟩

theorem witness_LoadOperandsAreTheLanes : ∃ p : Port, p.op = 0b10#2 := ⟨⟨false, 0b10#2, 0#32, 1#160⟩, rfl⟩

theorem witness_ProcessOperandIsDin : ∃ p : Port, p.op = 0b01#2 := ⟨⟨false, 0b01#2, 1#32, 0#160⟩, rfl⟩

theorem witness_FilterTypeCodes : 6 ≤ (6#3 : BitVec 3).toNat ∧ 6 ≤ (7#3 : BitVec 3).toNat := by decide

theorem witness_StepRunsPresentedInput :
    (∃ (s : State) (p : Port), p.init = false ∧ s.inputs = [.port p]) ∧
    (∃ (s : State) (op : BandOp), s.inputs = [.band op]) ∧
    (∃ (s : State) (op : EqualizerOp), s.inputs = [.equalizer op]) :=
  ⟨⟨{ State.reset with inputs := [.port (Port.ofCmd 1#194)] }, Port.ofCmd 1#194, rfl, rfl⟩,
   ⟨{ State.reset with inputs := [.band .reset] }, .reset, rfl⟩,
   ⟨{ State.reset with inputs := [.equalizer (.processFrame [])] }, .processFrame [], rfl⟩⟩

theorem witness_FetchedWordRunsNext :
    decodeTableWord 194 1 = some (.process 0#32) ∧ decodeTableWord 8 3 = some .reset ∧
    decodeTableWord 200 (2 ^ 194 - 1) =
      some .reset := by decide

theorem witness_IdleStepIsNop : State.reset.inputs = [] := rfl

theorem witness_LaunchStateAndNoCommandBeforeInit : ({ State.reset with initialised := false } : State).initialised = false := rfl

theorem witness_LoadEffect : State.reset.initialised = true ∧ ∃ p : Port, p.op = 0b10#2 :=
  ⟨rfl, ⟨false, 0b10#2, 0#32, 1#160⟩, rfl⟩

theorem witness_InitAndResetDifferInCoefficients : ∃ t, exec .reset State.reset = .next t := ⟨_, rfl⟩

/-- Also of `OutputPortsFollowCommands`: each command, from the launch state. -/
theorem witness_OnlyLoadWritesCoefficients :
    (∃ t, exec .nop State.reset = .next t) ∧ (∃ t, exec (.process one) State.reset = .next t) ∧
    (∃ t, exec (.load one one one one one) State.reset = .next t) ∧ ∃ t, exec .reset State.reset = .next t :=
  ⟨⟨_, rfl⟩, ⟨_, rfl⟩, ⟨_, rfl⟩, ⟨_, rfl⟩⟩

/-- V-CL1 is clamped; V-CL3, the smallest normal, is not. -/
theorem witness_NoOutputIsSubnormal :
    isSubnormal (recurrence 0 0x00000001#32 Cell.fresh) = true ∧ isSubnormal (recurrence 0 0x00800000#32 Cell.fresh) = false := by
  decide +kernel

theorem witness_MulRoundsToNearestEven :
    (isFinite one = true ∧ isFinite (fmul 0x7FC00000#32 one one) = true) ∧
    isFinite (fmul 0x7FC00000#32 0x7F7FFFFF#32 one) = true ∧ isFinite (fmul 0x7FC00000#32 0x00000001#32 0x00000001#32) = true := by
  decide +kernel

theorem witness_AddRoundsToNearestEven :
    isFinite 0x7F7FFFFF#32 = true ∧ isFinite 0x72FFFFFF#32 = true ∧
    isFinite (fadd 0x7FC00000#32 0x7F7FFFFF#32 0x72FFFFFF#32) = true ∧
    isFinite (fsub 0x7FC00000#32 0x7F7FFFFF#32 0x7F7FFFFF#32) = true := by decide +kernel

/-- The largest finite number plus 2^103 is the least sum that overflows; a product of `2.0` overflows too. -/
theorem witness_OverflowGivesInfinity :
    isFinite 0x7F7FFFFF#32 = true ∧ isFinite 0x73000000#32 = true ∧ isFinite 0x40000000#32 = true ∧
    33554431 * 2 ^ 252 = |quanta 0x7F7FFFFF#32 + quanta 0x73000000#32| ∧
    33554431 * 2 ^ 252 * 2 ^ 149 ≤ |quanta 0x7F7FFFFF#32 * quanta 0x40000000#32| := by decide +kernel

theorem witness_SignsOfResults :
    (isNaN one = false ∧ isNaN 0x80000000#32 = false ∧ ¬(isZero one = true ∧ isInf 0x80000000#32 = true) ∧
      ¬(isInf one = true ∧ isZero 0x80000000#32 = true)) ∧
    (isFinite one = true ∧ isFinite 0xBF800000#32 = true ∧ quanta one + quanta 0xBF800000#32 = 0) ∧
    (isFinite 0x80000000#32 = true ∧ quanta 0x80000000#32 + quanta 0x80000000#32 = 0) ∧
    quanta 0x80000001#32 + quanta 0x80000000#32 ≠ 0 := by decide +kernel

theorem witness_InfinityRules :
    (isZero 0x80000000#32 = true ∧ isInf 0x7F800000#32 = true) ∧
    (isFinite 0x00000001#32 = true ∧ isZero 0x00000001#32 = false) ∧ isInf 0xFF800000#32 = true ∧
    signField 0x7F800000#32 ≠ signField 0xFF800000#32 := by decide

theorem witness_NaNResultsAreQuiet :
    isNaN 0x7F800001#32 = true ∧ isNaN (fmul (drawnNaN 0) 0#32 0x7F800000#32) = true ∧
    isNaN (fadd (drawnNaN 0) 0x7F800000#32 0xFF800000#32) = true ∧
    isNaN (fsub (drawnNaN 0) 0x7F800000#32 0x7F800000#32) = true ∧ isQuietNaN 0xFFFFFFFF#32 = true := by
  refine ⟨by decide, ?_, ?_, ?_, by decide⟩
  · rw [fmul_finite_inf _ (by decide) (by decide), if_pos (by decide)]; exact isNaN_drawnNaN 0
  · rw [fadd_inf_inf _ (by decide) (by decide), if_neg (by decide)]; exact isNaN_drawnNaN 0
  · unfold fsub; rw [fadd_inf_inf _ (by decide) (by decide), if_neg (by decide)]; exact isNaN_drawnNaN 0

/-- The launch state, with the samples `1.0` (V-P2's kind) and `+0`. -/
theorem witness_ZeroHistoryOutput :
    (State.reset.cell.x1 = 0#32 ∧ State.reset.cell.x2 = 0#32 ∧ State.reset.cell.y1 = 0#32 ∧ State.reset.cell.y2 = 0#32) ∧
    (isFinite State.reset.cell.a0 = true ∧ isFinite State.reset.cell.a1 = true ∧ isFinite State.reset.cell.a2 = true ∧
      isFinite State.reset.cell.b1 = true ∧ isFinite State.reset.cell.b2 = true) ∧
    (isFinite one = true ∧ isZero (fmul (drawnNaN 0) State.reset.cell.a0 one) = false ∧
      isNormal State.reset.cell.a0 = true ∧ one = 0x3F800000#32) ∧
    isZero (fmul (drawnNaN 0) State.reset.cell.a0 0#32) = true := by decide +kernel

theorem witness_NonFiniteAbsorption :
    isFinite 0x7F800000#32 = false ∧ isNaN (cellOf idCoeffs 0#32 0#32 0x7FC00000#32 0#32 false).y1 = true ∧
    isNaN (cellOf idCoeffs 0#32 0#32 0#32 0x7FC00000#32 false).y2 = true := by decide

theorem witness_NonFiniteOutputPersists :
    Instr.reset ∉ [Instr.nop, .process one, .load one one one one one] ∧
    (withCell (cellOf idCoeffs 0#32 0#32 0x7FC00000#32 0#32 false)).initialised = true ∧
    isFinite (cellOf idCoeffs 0#32 0#32 0x7F800000#32 0#32 false).y1 = false ∧
    isNaN (cellOf idCoeffs 0#32 0#32 0x7FC00000#32 0#32 false).y1 = true := by decide

/-- The launch state; the least normal, the greatest subnormal, `-0`, an infinity and a signalling NaN. -/
theorem witness_IdentityCellPassesNormalSamples :
    State.reset.cell.coeffs = ⟨0x3F800000#32, 0#32, 0#32, 0#32, 0#32⟩ ∧
    (isFinite State.reset.cell.x1 = true ∧ isFinite State.reset.cell.x2 = true ∧ isFinite State.reset.cell.y1 = true ∧
      isFinite State.reset.cell.y2 = true) ∧
    (State.reset.cell.x1 = 0#32 ∧ State.reset.cell.x2 = 0#32 ∧ State.reset.cell.y1 = 0#32 ∧ State.reset.cell.y2 = 0#32) ∧
    isNormal 0x00800000#32 = true ∧ isSubnormal 0x007FFFFF#32 = true ∧ isInf 0xFF800000#32 = true ∧
    isNaN 0x7F800001#32 = true ∧ isFinite 0x7F800001#32 = false := by decide

/-- A state with an initialised cell, band and cascade, and a `setFrequency` to perform. -/
def busy : State :=
  { State.reset with
    band := bandOf true [Cell.fresh], equalizer := equalizerOf 1 [bandOf true [Cell.fresh]],
    inputs := [.band (.setFrequency 0#64)] }

theorem bandOf_inv (e : Bool) : (bandOf e [Cell.fresh]).Inv where
  channelCount := by cases e <;> decide
  cells := rfl
  coherent := by
    intro c hc d hd
    have h1 : c = Cell.fresh := by simpa [bandOf] using hc
    have h2 : d = Cell.fresh := by simpa [bandOf] using hd
    rw [h1, h2]
  clamped := by
    intro c hc
    have h1 : c = Cell.fresh := by simpa [bandOf] using hc
    rw [h1]; exact Cell.OutputsClamped.fresh
  frequency := .inl (by cases e <;> decide +kernel)

theorem witness_StepKeepsInvariant : busy.Inv ∧ ∃ t, step busy = .next t := by
  refine ⟨⟨fun _ => Cell.OutputsClamped.fresh, fun _ => bandOf_inv true, fun _ => ⟨by decide, rfl, ?_⟩⟩, ⟨_, rfl⟩⟩
  intro b hb
  have h : b = bandOf true [Cell.fresh] := by simpa [busy, equalizerOf] using hb
  rw [h]
  exact ⟨rfl, bandOf_inv true, rfl, rfl⟩

theorem witness_SystemsDoNotInterfere :
    (∃ t, stepPort (Port.ofCmd 3#194) State.reset = .next t) ∧ (∃ t, stepBand .reset State.reset = .next t) ∧
    ∃ t, stepEqualizer (.setBandEnabled 0 true) State.reset = .next t := ⟨⟨_, rfl⟩, ⟨_, rfl⟩, ⟨_, rfl⟩⟩

theorem witness_EngineFormulas :
    ∃ A : CoefArith ℝ,
      (∀ n, A.nat n = (n : ℝ)) ∧ A.pi = Real.pi ∧ (∀ x y, A.add x y = x + y) ∧ (∀ x y, A.sub x y = x - y) ∧
      (∀ x y, A.mul x y = x * y) ∧ (∀ x y, A.div x y = x / y) ∧ (∀ x, A.neg x = -x) ∧ (∀ x, A.sin x = Real.sin x) ∧
      (∀ x, A.cos x = Real.cos x) ∧ (∀ x, A.ln x = Real.log x) ∧ ∀ x, A.pow10 x = (10 : ℝ) ^ x :=
  ⟨⟨fun n => n, fun _ => 1, Real.pi, (· + ·), (· - ·), (· * ·), (· / ·), (- ·), Real.sin, Real.cos, Real.log,
    fun x => (10 : ℝ) ^ x, fun _ => 0#32⟩, by simp⟩

theorem witness_GainIsInertForOtherTypes : FilterType.lowpass ≠ .parametricEQ ∧ FilterType.allPass ≠ .parametricEQ := by decide

/-- The default arithmetic at the parameters of V-E6. -/
theorem witness_ParametricUnityAtZeroGain :
    let A := defaultArith tableLibrary
    let al := evalWith A (alpha 0x408F400000000000#64 0x40E7700000000000#64 0x3FF0000000000000#64)
    let b0 := evalWith A (unnormalised .parametricEQ 0x408F400000000000#64 0x40E7700000000000#64 0x3FF0000000000000#64 0#64).b0
    A.pow10 (A.div (A.input 0#64) (A.nat 40)) = A.nat 1 ∧ A.mul al (A.nat 1) = al ∧ A.div al (A.nat 1) = al ∧
    A.toBinary32 (A.div b0 b0) = 0x3F800000#32 := by decide +kernel

/-- Both zeros are 0 dB. -/
theorem witness_MachineEngineUnityAtZeroGain : eq64 0#64 0#64 = true ∧ eq64 0x8000000000000000#64 0#64 = true := by
  decide +kernel

/-- `b0` of W8, and the least subnormal. -/
theorem witness_DivisionBySelfIsOne :
    (eq64 0x3FF0B61A1ACE6471#64 0x3FF0B61A1ACE6471#64 = true ∧ eq64 0x3FF0B61A1ACE6471#64 0#64 = false ∧
      ∀ s, datum binary64 0x3FF0B61A1ACE6471 ≠ .inf s) ∧
    eq64 1#64 1#64 = true ∧ eq64 1#64 0#64 = false ∧ ∀ s, datum binary64 1 ≠ .inf s := by decide +kernel

/-- A library whose sine keeps everything and whose cosine is a NaN; 0 Hz (V-E10), `-0` Hz, and a sample rate of 0. -/
theorem witness_DegenerateParametersGiveNaN :
    ∃ L : HostLibrary,
      (∀ v, eq64 v 0#64 = true → eq64 (L.sin v) 0#64 = true) ∧
      (∀ v, isNaN64 v = true ∨ (∃ s, datum binary64 v.toNat = .inf s) →
        isNaN64 (L.sin v) = true ∧ isNaN64 (L.cos v) = true) ∧
      eq64 0#64 0#64 = true ∧ eq64 0x8000000000000000#64 0#64 = true := by
  refine ⟨⟨fun v => if eq64 v 0#64 then v else 0x7FF8000000000000#64, fun _ => 0x7FF8000000000000#64, id, id, 0#52, 0#23⟩,
    ?_, ?_, by decide +kernel, by decide +kernel⟩
  · intro v h; simp only [h, if_true]
  · intro v h
    have hn : eq64 v 0#64 = false := by
      rw [← Bool.not_eq_true, eq64_zero_iff]
      rintro ⟨s, hs⟩
      rw [isNaN64_iff, hs] at h
      rcases h with h | ⟨t, h⟩ <;> cases h
    simp only [hn, Bool.false_eq_true, if_false]
    exact ⟨by decide +kernel, by decide +kernel⟩

theorem witness_BandInitEffect :
    FilterType.ofCode 0#3 = some .lowpass ∧ FilterType.ofCode 5#3 = some .allPass ∧ 1 ≤ 1 ∧ 1 ≤ 8 ∧ 8 ≤ 8 := by decide

theorem witness_BandFrame :
    ∀ e : Bool, (withBand e).band.initialised = true ∧ (withBand e).band.enabled = e ∧
      [one].length = (withBand e).band.channelCount ∧ (withBand e).band.cells.length = (withBand e).band.channelCount := by
  decide

/-- Also of `FrequencyFloors`, third clause: 0 Hz is a change. -/
theorem witness_BandSetterEffects :
    (withBand true).band.initialised = true ∧ FilterType.ofCode 5#3 = some .allPass ∧
    eq64 0#64 (withBand true).band.frequencyHz = false := by decide +kernel

/-- The stored parameters, and a NaN bandwidth. -/
theorem witness_SetParamsEffect :
    let b := (withBand true).band
    (b.initialised = true ∧ FilterType.ofCode 0#3 = some b.filterType ∧ eq64 b.frequencyHz b.frequencyHz = true ∧
      eq64 b.bandwidthOctaves b.bandwidthOctaves = true ∧ (b.filterType = .parametricEQ → eq64 b.gainDb b.gainDb = true)) ∧
    eq64 0x7FF8000000000000#64 b.bandwidthOctaves = false := by decide +kernel

theorem witness_ParameterComparison :
    isNaN64 0x7FF0000000000001#64 = true ∧ isNaN64 0xFFF0000000000000#64 = false ∧
    eq64 0x8000000000000000#64 0#64 = true ∧ eq64 1#64 1#64 = true := by decide +kernel

theorem witness_FrequencyFloors :
    (∃ t, stepBand (.init 0#64 1 0#3 0#64 0#64 0#64) State.reset = .next t) ∧
    (∃ t, stepBand (.setParams 0#3 0#64 0#64 0#64) (withBand true) = .next t) ∧
    ∃ t, stepBand (.setFrequency 0#64) (withBand true) = .next t := ⟨⟨_, rfl⟩, ⟨_, rfl⟩, ⟨_, rfl⟩⟩

theorem witness_UninitialisedBandIgnores :
    State.reset.band.initialised = false ∧ (BandOp.setType 5#3).wellFormed = true ∧ BandOp.reset.wellFormed = true := by decide

theorem witness_EqualizerInitEffect : 1 ≤ 1 ∧ 1 ≤ 8 ∧ 8 ≤ 8 := by decide

/-- The last index, the one after it, and −1. -/
theorem witness_EqualizerSettersDelegate :
    withEqualizer.equalizer.initialised = true ∧ ((0 : Int) ≤ 0 ∧ (0 : Int) < withEqualizer.equalizer.bandCount) ∧
    (withEqualizer.equalizer.bandCount : Int) ≤ 1 ∧ (-1 : Int) < 0 ∧ State.reset.equalizer.initialised = false ∧
    FilterType.ofCode 0#3 = some .lowpass := by decide

theorem witness_CascadeFrame :
    withEqualizer.equalizer.initialised = true ∧ [one, 0xFF800000#32].length = withEqualizer.equalizer.channelCount ∧
    withEqualizer.equalizer.bands[0]? = some (bandOf false [Cell.fresh, Cell.fresh]) := by decide

/-- The frame of W7. -/
theorem witness_DisabledCascadeIsIdentity :
    withEqualizer.equalizer.initialised = true ∧ [one, 0xFF800000#32].length = withEqualizer.equalizer.channelCount ∧
    ∀ b ∈ withEqualizer.equalizer.bands, b.enabled = false := by decide

theorem witness_RefusedOperations :
    (5#3 : BitVec 3).toNat < 6 ∧ 8 < 9 ∧ 0 < 1 ∧ State.reset.equalizer.initialised = false := by decide

/-- Each clause of `RefusedOperations`, by running it. -/
theorem test_refusals :
    refusalOf (stepBand (.init 0#64 0 5#3 0#64 0#64 0#64) State.reset) = some .channelCountOutOfRange ∧
    refusalOf (stepBand (.init 0#64 9 5#3 0#64 0#64 0#64) State.reset) = some .channelCountOutOfRange ∧
    refusalOf (stepEqualizer (.init 0#64 1 0) State.reset) = some .channelCountOutOfRange ∧
    refusalOf (stepEqualizer (.init 0#64 1 9) State.reset) = some .channelCountOutOfRange ∧
    refusalOf (stepEqualizer (.init 0#64 0 1) State.reset) = some .bandCountOutOfRange ∧
    refusalOf (stepEqualizer (.processFrame []) State.reset) = some .frameBeforeInit ∧
    refusalOf (exec .nop { State.reset with initialised := false }) = some .commandBeforeInit := by decide

end Sys2Proof.Tests
end

section
/-! SUPPORT. The state family (10_state.md): the invariant of the three systems and its step lemma, and the rules about the
cell's registers and ports. A step of the band or of the cascade is read as a relation between the cells, and the bands,
before and after it (`Sustains`), which each operation meets and which carries the invariant over. -/

namespace Sys2Proof.Machine

/-! ## What a command leaves in one cell -/

@[simp] theorem Cell.nop_coeffs (c : Cell) : c.nop.coeffs = c.coeffs := rfl

@[simp] theorem Cell.process_coeffs (n : Nat) (x : Word) (c : Cell) : (c.process n x).coeffs = c.coeffs := rfl

@[simp] theorem Cell.load_coeffs (k : Coeffs) (c : Cell) : (c.load k).coeffs = k := rfl

@[simp] theorem Cell.reset_coeffs (c : Cell) : c.reset.coeffs = c.coeffs := rfl

/-- `d` has the coefficients of `c`, and its outputs are clamped where those of `c` are: what every command but LOAD makes
of a cell. -/
structure Cell.Sustains (d c : Cell) : Prop where
  coeffs : d.coeffs = c.coeffs
  clamped : c.OutputsClamped → d.OutputsClamped

theorem Cell.Sustains.refl (c : Cell) : c.Sustains c := ⟨rfl, id⟩

theorem Cell.nop_sustains (c : Cell) : c.nop.Sustains c := ⟨rfl, .nop⟩

theorem Cell.process_sustains (n : Nat) (x : Word) (c : Cell) : (c.process n x).Sustains c := ⟨rfl, .process n x⟩

theorem Cell.reset_sustains (c : Cell) : c.reset.Sustains c := ⟨rfl, fun _ => .reset c⟩

theorem exists_sustained_of_mem_settleCells {n : Nat} {cs : List Cell} {d : Cell} (h : d ∈ settleCells n cs) :
    ∃ c ∈ cs, d.Sustains c := by
  obtain ⟨c, hc, rfl | rfl⟩ := mem_settleCells h
  · exact ⟨d, hc, .refl d⟩
  · exact ⟨c, hc, c.nop_sustains⟩

theorem exists_sustained_of_mem_processCells {n : Nat} {cs : List Cell} {xs : List Word} {d : Cell}
    (h : d ∈ processCells n cs xs) : ∃ c ∈ cs, d.Sustains c := by
  obtain ⟨c, hc, rfl | ⟨m, x, rfl⟩⟩ := mem_processCells h
  · exact ⟨d, hc, .refl d⟩
  · exact ⟨c, hc, c.process_sustains m x⟩

/-! ## Stored frequencies -/

/-- What a stored frequency may be: at least 0, or a NaN (R89, R97). -/
def FrequencyAllowed (f : Binary64) : Prop := le64 hz0 f = true ∨ isNaN64 f = true

theorem clampFrequency_allowed {floor : Binary64} (f : Binary64) (hz : le64 hz0 floor = true)
    (hr : le64 floor floor = true) (hn : isNaN64 floor = false) : FrequencyAllowed (clampFrequency floor f) := by
  rcases clampFrequency_floor floor f hr hn with h | ⟨h, he⟩
  · exact .inl (le64_trans hz h)
  · exact .inr (he.symm ▸ h)

theorem clampFrequency_hz20_allowed (f : Binary64) : FrequencyAllowed (clampFrequency hz20 f) :=
  clampFrequency_allowed f (by decide +kernel) (by decide +kernel) (by decide +kernel)

theorem clampFrequency_hz0_allowed (f : Binary64) : FrequencyAllowed (clampFrequency hz0 f) :=
  clampFrequency_allowed f (by decide +kernel) (by decide +kernel) (by decide +kernel)

/-! ## The invariant of a band, update by update -/

/-- Other cells, as many, each with the coefficients and the clamping of one that was there. -/
theorem Band.Inv.replaceCells {b : Band} (h : b.Inv) {cs : List Cell} (hlen : cs.length = b.cells.length)
    (hcs : ∀ d ∈ cs, ∃ c ∈ b.cells, d.Sustains c) : Band.Inv { b with cells := cs } where
  channelCount := h.channelCount
  cells := hlen.trans h.cells
  coherent d hd e he := by
    obtain ⟨c, hc, hdc⟩ := hcs d hd
    obtain ⟨c', hc', hec⟩ := hcs e he
    rw [hdc.coeffs, hec.coeffs, h.coherent c hc c' hc']
  clamped d hd := by
    obtain ⟨c, hc, hdc⟩ := hcs d hd
    exact hdc.clamped (h.clamped c hc)
  frequency := h.frequency

/-- Other parameters over the same cells. -/
theorem Band.Inv.storeParams {b : Band} (h : b.Inv) (type : FilterType) {f : Binary64} (bw g : Binary64)
    (hf : FrequencyAllowed f) :
    Band.Inv { b with filterType := type, frequencyHz := f, bandwidthOctaves := bw, gainDb := g } where
  channelCount := h.channelCount
  cells := h.cells
  coherent := h.coherent
  clamped := h.clamped
  frequency := hf

/-- One LOAD of one set to every cell makes the coefficients identical (R102). -/
theorem Band.Inv.broadcastLoad {b : Band} (h : b.Inv) : b.broadcastLoad.Inv where
  channelCount := h.channelCount
  cells := by simp [h.cells]
  coherent c hc d hd := by
    obtain ⟨c', -, rfl⟩ := List.mem_map.1 hc
    obtain ⟨d', -, rfl⟩ := List.mem_map.1 hd
    rfl
  clamped c hc := by
    obtain ⟨c', hc', rfl⟩ := List.mem_map.1 hc
    exact (h.clamped c' hc').load b.coeffs
  frequency := h.frequency

theorem Band.Inv.broadcastReset {b : Band} (h : b.Inv) : b.broadcastReset.Inv := by
  refine h.replaceCells (List.length_map ..) fun d hd => ?_
  obtain ⟨c, hc, rfl⟩ := List.mem_map.1 hd
  exact ⟨c, hc, c.reset_sustains⟩

theorem Band.Inv.init (sampleRateHz : Binary64) {n : Nat} (type : FilterType) (f bw g : Binary64)
    (hn : channelCountWellFormed n = true) : (Band.init sampleRateHz n type f bw g).Inv := by
  refine Band.Inv.broadcastLoad (Band.Inv.broadcastReset ⟨hn, List.length_replicate, fun c hc d hd => ?_, fun c hc => ?_,
    clampFrequency_hz20_allowed f⟩)
  · rw [List.eq_of_mem_replicate hc, List.eq_of_mem_replicate hd]
  · rw [List.eq_of_mem_replicate hc]
    exact .fresh

/-! ## Each operation on a band that has had its `init` sustains the band -/

/-- `d` has the shape of `b` (whether it is initialised, its channel count, its sample rate) and meets the invariant where
`b` does: what every operation but `init` makes of a band. -/
structure Band.Sustains (d b : Band) : Prop where
  initialised : d.initialised = b.initialised
  channelCount : d.channelCount = b.channelCount
  sampleRateHz : d.sampleRateHz = b.sampleRateHz
  inv : b.Inv → d.Inv

theorem Band.Sustains.refl (b : Band) : b.Sustains b := ⟨rfl, rfl, rfl, id⟩

theorem Band.replaceCells_sustains {b : Band} {cs : List Cell} (hlen : cs.length = b.cells.length)
    (hcs : ∀ d ∈ cs, ∃ c ∈ b.cells, d.Sustains c) : Band.Sustains { b with cells := cs } b :=
  ⟨rfl, rfl, rfl, fun h => h.replaceCells hlen hcs⟩

theorem Band.settle_sustains (n : Nat) (b : Band) : (b.settle n).Sustains b :=
  Band.replaceCells_sustains (settleCells_length ..) fun _ => exists_sustained_of_mem_settleCells

theorem Band.processFrame_sustains (n : Nat) (v : List Word) (b : Band) : (b.processFrame n v).1.Sustains b := by
  cases he : b.enabled with
  | true =>
    rw [Band.processFrame_enabled n v he]
    exact Band.replaceCells_sustains (processCells_length ..) fun _ => exists_sustained_of_mem_processCells
  | false =>
    rw [Band.processFrame_disabled n v he]
    exact .refl b

/-- An update that an uninitialised band ignores meets the invariant where the update itself does (R101). -/
theorem Band.Inv.whenInitialised {b : Band} (h : b.Inv) {f : Band → Band} (hf : (f b).Inv) :
    (b.whenInitialised f).Inv := by
  unfold Band.whenInitialised
  split
  · exact hf
  · exact h

theorem Band.KeepsShape.sustains {f : Band → Band} (hf : Band.KeepsShape f) {b : Band} (h : b.Inv → (f b).Inv) :
    (f b).Sustains b := ⟨hf.initialised b, hf.channelCount b, hf.sampleRateHz b, h⟩

theorem Band.reset_sustains (b : Band) : b.reset.Sustains b :=
  Band.reset_keepsShape.sustains fun h => h.whenInitialised h.broadcastReset

theorem Band.setEnabled_sustains (enabled : Bool) (b : Band) : (b.setEnabled enabled).Sustains b :=
  (Band.setEnabled_keepsShape enabled).sustains fun h =>
    h.whenInitialised ⟨h.channelCount, h.cells, h.coherent, h.clamped, h.frequency⟩

theorem Band.setType_sustains (type : FilterType) (b : Band) : (b.setType type).Sustains b := by
  refine (Band.setType_keepsShape type).sustains fun h => h.whenInitialised ?_
  split
  · exact (h.storeParams type b.bandwidthOctaves b.gainDb h.frequency).broadcastLoad
  · exact h

theorem Band.setFrequency_sustains (f : Binary64) (b : Band) : (b.setFrequency f).Sustains b := by
  refine (Band.setFrequency_keepsShape f).sustains fun h => h.whenInitialised ?_
  split
  · exact (h.storeParams b.filterType b.bandwidthOctaves b.gainDb (clampFrequency_hz0_allowed f)).broadcastLoad
  · exact h

theorem Band.setBandwidth_sustains (bw : Binary64) (b : Band) : (b.setBandwidth bw).Sustains b := by
  refine (Band.setBandwidth_keepsShape bw).sustains fun h => h.whenInitialised ?_
  split
  · exact (h.storeParams b.filterType bw b.gainDb h.frequency).broadcastLoad
  · exact h

theorem Band.setGainDb_sustains (g : Binary64) (b : Band) : (b.setGainDb g).Sustains b := by
  refine (Band.setGainDb_keepsShape g).sustains fun h => h.whenInitialised ?_
  have stored := h.storeParams b.filterType b.bandwidthOctaves g h.frequency
  dsimp only
  split
  · split
    · exact stored.broadcastLoad
    · exact stored
  · exact h

theorem Band.setParams_sustains (type : FilterType) (f bw g : Binary64) (b : Band) :
    (b.setParams type f bw g).Sustains b := by
  refine (Band.setParams_keepsShape type f bw g).sustains fun h => h.whenInitialised ?_
  have stored := h.storeParams type bw g (clampFrequency_hz20_allowed f)
  dsimp only
  split
  · exact stored.broadcastLoad
  · exact stored

/-! ## Each operation on a cascade that has had its `init` sustains the cascade -/

/-- `d` is initialised where `e` is and meets the invariant where `e` does: what every operation but `init` makes of a
cascade. -/
structure Equalizer.Sustains (d e : Equalizer) : Prop where
  initialised : d.initialised = e.initialised
  inv : e.Inv → d.Inv

/-- Other bands, as many, each sustaining one that was there. -/
theorem Equalizer.replaceBands_sustains {e : Equalizer} {bs : List Band} (hlen : bs.length = e.bands.length)
    (hbs : ∀ d ∈ bs, ∃ b ∈ e.bands, d.Sustains b) : Equalizer.Sustains { e with bands := bs } e := by
  refine ⟨rfl, fun h => ⟨h.bandCount, hlen.trans h.bands, fun d hd => ?_⟩⟩
  obtain ⟨b, hb, hdb⟩ := hbs d hd
  obtain ⟨hinit, hinv, hcount, hrate⟩ := h.each b hb
  exact ⟨hdb.initialised.trans hinit, hdb.inv hinv, hdb.channelCount.trans hcount, hdb.sampleRateHz.trans hrate⟩

theorem Equalizer.settleBands_sustains (n : Nat) (e : Equalizer) :
    Equalizer.Sustains { e with bands := settleBands n e.bands } e := by
  refine Equalizer.replaceBands_sustains (settleBands_length ..) fun d hd => ?_
  obtain ⟨b, hb, m, rfl⟩ := mem_settleBands hd
  exact ⟨b, hb, b.settle_sustains m⟩

theorem Equalizer.processBands_sustains (n : Nat) (v : List Word) (e : Equalizer) :
    Equalizer.Sustains { e with bands := (processBands n e.bands v).1 } e := by
  refine Equalizer.replaceBands_sustains (processBands_length ..) fun d hd => ?_
  obtain ⟨b, hb, m, w, rfl⟩ := mem_processBands hd
  exact ⟨b, hb, b.processFrame_sustains m w⟩

theorem exists_sustained_of_mem_modify {f : Band → Band} (hf : ∀ b, (f b).Sustains b) {bs : List Band} {i : Nat} {d : Band}
    (h : d ∈ bs.modify i f) : ∃ b ∈ bs, d.Sustains b := by
  obtain ⟨j, hj, rfl⟩ := List.getElem_of_mem h
  have hj' : j < bs.length := by simpa using hj
  refine ⟨bs[j], List.getElem_mem hj', ?_⟩
  rw [List.getElem_modify]
  split
  · exact hf _
  · exact .refl _

theorem Equalizer.onBand_sustains {f : Band → Band} (hf : ∀ b, (f b).Sustains b) (k : Int) (e : Equalizer) :
    (e.onBand k f).Sustains e := by
  by_cases hk : e.initialised ∧ 0 ≤ k ∧ k < (e.bandCount : Int)
  · rw [Equalizer.onBand_of f hk]
    exact Equalizer.replaceBands_sustains (List.length_modify ..) fun _ => exists_sustained_of_mem_modify hf
  · rw [Equalizer.onBand_of_not f hk]
    exact ⟨rfl, id⟩

theorem Equalizer.Inv.init (sampleRateHz : Binary64) {bandCount channelCount : Nat}
    (hb : bandCountWellFormed bandCount = true) (hc : channelCountWellFormed channelCount = true) :
    (Equalizer.init sampleRateHz bandCount channelCount).Inv := by
  refine ⟨hb, List.length_replicate, fun b h => ?_⟩
  rw [List.eq_of_mem_replicate h]
  exact ⟨rfl, .init sampleRateHz .parametricEQ hz500 oneOctave zeroDb hc, rfl, rfl⟩

/-! ## What a step of the band or of the cascade can do -/

theorem stepBand_init_next {sr : Binary64} {n : Nat} {code : BitVec 3} {f bw g : Binary64} {s t : State}
    (h : stepBand (.init sr n code f bw g) s = .next t) :
    ∃ type, FilterType.ofCode code = some type ∧ channelCountWellFormed n = true ∧
      t = s.putBand (Band.init sr n type f bw g) := by
  obtain ⟨type, hcode, h⟩ := withFilterType_next h
  split at h
  · exact ⟨type, hcode, ‹_›, (Host.Outcome.next.inj h).symm⟩
  · cases h

theorem stepBand_processFrame_next {v : List Word} {s t : State} (h : stepBand (.processFrame v) s = .next t) :
    s.band.initialised = true ∧ v.length = s.band.channelCount ∧
      t = { s.putBand (s.band.processFrame s.draws v).1 with outSamples := (s.band.processFrame s.draws v).2 } := by
  simp only [stepBand] at h
  split at h
  · cases h
  · split at h
    · cases h
    · exact ⟨by simpa using ‹¬(!s.band.initialised) = true›, not_not.1 ‹_›, (Host.Outcome.next.inj h).symm⟩

theorem stepEqualizer_init_next {sr : Binary64} {m n : Nat} {s t : State} (h : stepEqualizer (.init sr m n) s = .next t) :
    bandCountWellFormed m = true ∧ channelCountWellFormed n = true ∧ t = s.putEqualizer (Equalizer.init sr m n) := by
  simp only [stepEqualizer] at h
  split at h
  · cases h
  · split at h
    · cases h
    · exact ⟨by simpa using ‹¬(!bandCountWellFormed m) = true›, by simpa using ‹¬(!channelCountWellFormed n) = true›,
        (Host.Outcome.next.inj h).symm⟩

theorem stepEqualizer_processFrame_next {v : List Word} {s t : State} (h : stepEqualizer (.processFrame v) s = .next t) :
    s.equalizer.initialised = true ∧ v.length = s.equalizer.channelCount ∧
      t = { s.putEqualizer { s.equalizer with bands := (processBands s.draws s.equalizer.bands v).1 } with
            outSamples := (processBands s.draws s.equalizer.bands v).2 } := by
  simp only [stepEqualizer] at h
  split at h
  · cases h
  · split at h
    · cases h
    · exact ⟨by simpa using ‹¬(!s.equalizer.initialised) = true›, not_not.1 ‹_›, (Host.Outcome.next.inj h).symm⟩

/-- A completed operation puts a band: a fresh one with an allowed channel count, or one that sustains the old one. -/
theorem stepBand_next {op : BandOp} {s t : State} (h : stepBand op s = .next t) :
    ∃ b out, t = { s.putBand b with outSamples := out } ∧
      ((∃ sr n type f bw g, channelCountWellFormed n = true ∧ b = Band.init sr n type f bw g) ∨ b.Sustains s.band) := by
  have put {b : Band} (ht : Host.Outcome.next (s.putBand b) = (.next t : Host.Outcome State Fault Refusal)) :
      t = { s.putBand b with outSamples := s.outSamples } := (Host.Outcome.next.inj ht).symm
  cases op with
  | init sr n code f bw g =>
    obtain ⟨type, -, hn, rfl⟩ := stepBand_init_next h
    exact ⟨_, _, rfl, .inl ⟨sr, n, type, f, bw, g, hn, rfl⟩⟩
  | processFrame v =>
    obtain ⟨-, -, rfl⟩ := stepBand_processFrame_next h
    exact ⟨_, _, rfl, .inr (s.band.processFrame_sustains s.draws v)⟩
  | reset => exact ⟨_, _, put h, .inr s.band.reset_sustains⟩
  | setParams code f bw g =>
    obtain ⟨type, -, h⟩ := withFilterType_next h
    exact ⟨_, _, put h, .inr (s.band.setParams_sustains type f bw g)⟩
  | setType code =>
    obtain ⟨type, -, h⟩ := withFilterType_next h
    exact ⟨_, _, put h, .inr (s.band.setType_sustains type)⟩
  | setFrequency f => exact ⟨_, _, put h, .inr (s.band.setFrequency_sustains f)⟩
  | setBandwidth bw => exact ⟨_, _, put h, .inr (s.band.setBandwidth_sustains bw)⟩
  | setGainDb g => exact ⟨_, _, put h, .inr (s.band.setGainDb_sustains g)⟩
  | setEnabled enabled => exact ⟨_, _, put h, .inr (s.band.setEnabled_sustains enabled)⟩

/-- A completed operation puts a cascade: a fresh one with allowed counts, or one that sustains the old one. -/
theorem stepEqualizer_next {op : EqualizerOp} {s t : State} (h : stepEqualizer op s = .next t) :
    ∃ e out, t = { s.putEqualizer e with outSamples := out } ∧
      ((∃ sr m n, bandCountWellFormed m = true ∧ channelCountWellFormed n = true ∧ e = Equalizer.init sr m n) ∨
       e.Sustains s.equalizer) := by
  have put {e : Equalizer} (ht : .next (s.putEqualizer e) = (.next t : Host.Outcome State Fault Refusal)) :
      t = { s.putEqualizer e with outSamples := s.outSamples } := (Host.Outcome.next.inj ht).symm
  cases op with
  | init sr m n =>
    obtain ⟨hm, hn, rfl⟩ := stepEqualizer_init_next h
    exact ⟨_, _, rfl, .inl ⟨sr, m, n, hm, hn, rfl⟩⟩
  | processFrame v =>
    obtain ⟨-, -, rfl⟩ := stepEqualizer_processFrame_next h
    exact ⟨_, _, rfl, .inr (s.equalizer.processBands_sustains s.draws v)⟩
  | setBandEnabled k enabled => exact ⟨_, _, put h, .inr (Equalizer.onBand_sustains (Band.setEnabled_sustains enabled) k _)⟩
  | setBandParams k code f bw g =>
    obtain ⟨type, -, h⟩ := withFilterType_next h
    exact ⟨_, _, put h, .inr (Equalizer.onBand_sustains (Band.setParams_sustains type f bw g) k _)⟩
  | setBandFrequency k f => exact ⟨_, _, put h, .inr (Equalizer.onBand_sustains (Band.setFrequency_sustains f) k _)⟩
  | setBandwidth k bw => exact ⟨_, _, put h, .inr (Equalizer.onBand_sustains (Band.setBandwidth_sustains bw) k _)⟩
  | setBandGainDb k g => exact ⟨_, _, put h, .inr (Equalizer.onBand_sustains (Band.setGainDb_sustains g) k _)⟩

/-! ## Each kind of event keeps the invariant of the machine -/

theorem State.Inv.exec {s t : State} (hs : s.Inv) {i : Instr} (h : exec i s = .next t) : t.Inv := by
  obtain ⟨hi, hcases⟩ := exec_next h
  have hc := hs.cell hi
  obtain ⟨-, rfl⟩ | ⟨x, -, rfl⟩ | ⟨a0, a1, a2, b1, b2, -, rfl⟩ | ⟨-, rfl⟩ := hcases
  · exact ⟨fun _ => hc.nop, hs.band, hs.equalizer⟩
  · exact ⟨fun _ => hc.process s.draws x, hs.band, hs.equalizer⟩
  · exact ⟨fun _ => hc.load ⟨a0, a1, a2, b1, b2⟩, hs.band, hs.equalizer⟩
  · exact ⟨fun _ => .reset s.cell, hs.band, hs.equalizer⟩

theorem State.Inv.initCell {s : State} (hs : s.Inv) : s.initCell.Inv := ⟨fun _ => .fresh, hs.band, hs.equalizer⟩

theorem State.Inv.stepBand {s t : State} (hs : s.Inv) {op : BandOp} (h : stepBand op s = .next t) : t.Inv := by
  obtain ⟨b, out, rfl, hb⟩ := stepBand_next h
  refine ⟨hs.cell, fun hi => ?_, hs.equalizer⟩
  refine (b.settle_sustains _).inv ?_
  rcases hb with ⟨sr, n, type, f, bw, g, hn, rfl⟩ | hb
  · exact .init sr type f bw g hn
  · exact hb.inv (hs.band (hb.initialised.symm.trans hi))

theorem State.Inv.stepEqualizer {s t : State} (hs : s.Inv) {op : EqualizerOp} (h : stepEqualizer op s = .next t) : t.Inv := by
  obtain ⟨e, out, rfl, he⟩ := stepEqualizer_next h
  refine ⟨hs.cell, hs.band, fun hi => ?_⟩
  refine (e.settleBands_sustains _).inv ?_
  rcases he with ⟨sr, m, n, hm, hn, rfl⟩ | he
  · exact .init sr hm hn
  · exact he.inv (hs.equalizer (he.initialised.symm.trans hi))

theorem stepPort_of_init {p : Port} (s : State) (h : p.init = true) : stepPort p s = .next s.initCell := by
  rw [stepPort, if_pos h]

theorem stepPort_of_not_init {p : Port} (s : State) (h : p.init = false) : stepPort p s = exec (decode p.cmd) s := by
  rw [stepPort, if_neg (by simp [h])]

theorem State.Inv.stepInput {s t : State} (hs : s.Inv) {i : Input} (h : stepInput i s = .next t) : t.Inv := by
  cases i with
  | port p =>
    cases hp : p.init with
    | true =>
      cases (stepPort_of_init s hp).symm.trans h
      exact hs.initCell
    | false => exact hs.exec ((stepPort_of_not_init s hp).symm.trans h)
  | band op => exact hs.stepBand h
  | equalizer op => exact hs.stepEqualizer h

theorem step_of_nil {s : State} (h : s.inputs = []) : step s = exec .nop s := by
  simp only [step, h, stepIdle]

theorem step_of_cons {s : State} {i : Input} {rest : List Input} (h : s.inputs = i :: rest) :
    step s = stepInput i { s with inputs := rest } := by
  simp only [step, h]

/-- Settles O36, event by event: what the event leaves in its own system sustains what was there, or is fresh. -/
theorem stepKeepsInvariant : Obligations.StepKeepsInvariant := by
  intro s t hs h
  cases hin : s.inputs with
  | nil =>
    rw [step_of_nil hin] at h
    exact hs.exec h
  | cons i rest =>
    rw [step_of_cons hin] at h
    have hrest : State.Inv { s with inputs := rest } := ⟨hs.cell, hs.band, hs.equalizer⟩
    exact hrest.stepInput h

/-- Settles O35: the cell is fresh, and the band and the cascade have had no `init`. -/
theorem invariantHoldsAtReset : Obligations.InvariantHoldsAtReset where
  cell _ := .fresh
  band h := by cases h
  equalizer h := by cases h

/-! ## Commands, as they are presented and what they leave in the cell -/

theorem stepPort_ofCmd (w : Cmd) (s : State) : stepPort (Port.ofCmd w) s = exec (decode w) s := by
  rw [stepPort_of_not_init s (Port.init_ofCmd w), Port.cmd_ofCmd]

theorem decode_of_decodeNat {n : Nat} {i : Instr} (h : decodeNat n = .ok i) : decode (BitVec.ofNat 194 n) = i := by
  unfold decodeNat at h
  split at h
  · exact Except.ok.inj h
  · cases h

theorem decode_of_decodeTableWord {nbits w : Nat} {i : Instr} (h : decodeTableWord nbits w = some i) :
    decode (BitVec.ofNat 194 (w % 2 ^ nbits)) = i := by
  unfold decodeTableWord at h
  split at h
  · exact (decode_of_decodeNat ‹_›).trans (Option.some.inj h)
  · cases h

theorem step_presentCmd (w : Nat) (s : State) : step (s.presentCmd w) = exec (decode (BitVec.ofNat 194 w)) s :=
  (step_of_cons (State.presentCmd_inputs w s)).trans (stepPort_ofCmd _ s)

/-- Settles O9: the word goes to the head of `inputs`, and the step takes it from there. -/
theorem fetchedWordRunsNext : Obligations.FetchedWordRunsNext := by
  intro s nbits w i h
  calc step (s.withFetchWord nbits w)
      = exec (decode (BitVec.ofNat 194 (w % 2 ^ nbits))) s := step_presentCmd _ s
    _ = exec i s := by rw [decode_of_decodeTableWord h]

/-- Settles O20, command by command. -/
theorem onlyLoadWritesCoefficients : Obligations.OnlyLoadWritesCoefficients := by
  intro i s t h
  obtain ⟨-, ⟨rfl, rfl⟩ | ⟨x, rfl, rfl⟩ | ⟨a0, a1, a2, b1, b2, rfl, rfl⟩ | ⟨rfl, rfl⟩⟩ := exec_next h
  · exact ⟨fun _ => s.cell.nop_coeffs, by simp, rfl⟩
  · exact ⟨fun _ => s.cell.process_coeffs s.draws x, by simp, rfl⟩
  · exact ⟨fun hne => absurd rfl (hne a0 a1 a2 b1 b2), by simp, rfl⟩
  · exact ⟨fun _ => s.cell.reset_coeffs, by simp, rfl⟩

theorem execAll_cons {i : Instr} {s t : State} (h : exec i s = .next t) (is : List Instr) :
    execAll (i :: is) s = execAll is t := by
  simp only [execAll, h]

/-- Settles O22: the second PROCESS runs in the state the first left. -/
theorem twoSamplesFillTheDelayLine : Obligations.TwoSamplesFillTheDelayLine := by
  intro s a b hi
  have first := exec_process a hi
  have both := (execAll_cons first [.process b]).trans ((execAll_one _ _).trans (exec_process b hi))
  exact ⟨_, _, (execAll_one _ s).trans first, both, rfl, rfl, rfl, rfl, rfl, rfl, rfl, rfl⟩

theorem exec_ignores_valid (i : Instr) (s : State) (v : Bool) :
    exec i { s with cell := { s.cell with valid := v } } = exec i s := by
  cases i <;> rfl

/-- Settles O23, command by command. -/
theorem outputPortsFollowCommands : Obligations.OutputPortsFollowCommands := by
  refine ⟨fun i s t h => ⟨rfl, ?_⟩, fun s => ⟨rfl, rfl⟩, exec_ignores_valid⟩
  obtain ⟨-, ⟨rfl, rfl⟩ | ⟨x, rfl, rfl⟩ | ⟨a0, a1, a2, b1, b2, rfl, rfl⟩ | ⟨rfl, rfl⟩⟩ := exec_next h
  · simp [Cell.dout, Cell.doutValid]
  · simp [Cell.dout, Cell.doutValid]
  · simp [Cell.dout, Cell.doutValid]
  · simp [Cell.dout, Cell.doutValid, posZero]

/-- Settles O12: the launch state is INIT's, and a cell without INIT refuses every command. -/
theorem launchStateAndNoCommandBeforeInit : Obligations.LaunchStateAndNoCommandBeforeInit :=
  ⟨rfl, rfl, fun _ => ⟨rfl, rfl⟩, fun _ i h => exec_uninitialised i h⟩

end Sys2Proof.Machine
end

section
/-! SUPPORT. The memory family (20_memory.md): what a run of commands leaves in the coefficient registers, and what a step
takes from the inputs. -/

namespace Sys2Proof.Machine

/-! ## Runs of commands -/

/-- One command before a run: the coefficients the longer run leaves are those the shorter one leaves from the next state.
A LOAD makes its own set the starting one, every other command keeps the set it found (R16). -/
theorem lastLoad_cons_getD {i : Instr} {s t : State} (h : exec i s = .next t) (is : List Instr) :
    (lastLoad (i :: is)).getD s.cell.coeffs = (lastLoad is).getD t.cell.coeffs := by
  obtain ⟨-, ⟨rfl, rfl⟩ | ⟨x, rfl, rfl⟩ | ⟨a0, a1, a2, b1, b2, rfl, rfl⟩ | ⟨rfl, rfl⟩⟩ := exec_next h
  · rw [Cell.nop_coeffs, lastLoad]
  · rw [Cell.process_coeffs, lastLoad]
  · rw [Cell.load_coeffs, lastLoad, Option.getD_some]
  · rw [Cell.reset_coeffs, lastLoad]

/-- Every run of an initialised cell completes, and leaves the coefficients of its last LOAD (R39). -/
theorem exists_execAll_next (is : List Instr) {s : State} (h : s.initialised = true) :
    ∃ t, execAll is s = .next t ∧ t.initialised = true ∧ t.cell.coeffs = (lastLoad is).getD s.cell.coeffs := by
  induction is generalizing s with
  | nil => exact ⟨s, rfl, h, rfl⟩
  | cons i is ih =>
    obtain ⟨r, hr, hri⟩ := exec_completes i h
    obtain ⟨t, ht, hti, hcoeffs⟩ := ih hri
    exact ⟨t, (execAll_cons hr is).trans ht, hti, hcoeffs.trans (lastLoad_cons_getD hr is).symm⟩

theorem execAll_concat {is : List Instr} {s t : State} (h : execAll is s = .next t) (i : Instr) :
    execAll (is ++ [i]) s = exec i t := by
  rw [execAll_append, h]
  exact execAll_one i t

/-- Settles O21: the run leaves the coefficients of its last LOAD, and the PROCESS after it reads and keeps them. -/
theorem processUsesLastLoad : Obligations.ProcessUsesLastLoad := by
  intro is x s hi
  obtain ⟨t, ht, hti, hcoeffs⟩ := exists_execAll_next is hi
  refine ⟨t, _, ht, (execAll_concat ht _).trans (exec_process x hti), hcoeffs, hcoeffs, ?_⟩
  rw [← hcoeffs]
  exact t.cell.process_y1 t.draws x

/-! ## What a step takes from the inputs -/

/-- Settles O8: a step is the event at the head of the inputs, in the state without it. -/
theorem stepRunsPresentedInput : Obligations.StepRunsPresentedInput := by
  intro s rest
  refine ⟨fun p hp h => ?_, fun op h => step_of_cons h, fun op h => step_of_cons h⟩
  exact (step_of_cons h).trans (stepPort_of_not_init _ hp)

end Sys2Proof.Machine
end

section
/-! SUPPORT. The encoding family (30_encoding.md): what the decoder reads from a word by its code, the decoder and the encoder
against each other, the buses a command does not use, and the textual form of some lines of the spec. -/

namespace Sys2Proof.Machine

/-! ## What the decoder reads, code by code (R46) -/

theorem decode_nop {w : Cmd} (h : opField w = 0b00#2) : decode w = .nop := by
  simp [decode, h]

theorem decode_process {w : Cmd} (h : opField w = 0b01#2) : decode w = .process (dinField w) := by
  simp [decode, h]

theorem decode_load {w : Cmd} (h : opField w = 0b10#2) :
    decode w = .load (coefLanes (coefField w)).a0 (coefLanes (coefField w)).a1 (coefLanes (coefField w)).a2
      (coefLanes (coefField w)).b1 (coefLanes (coefField w)).b2 := by
  simp [decode, h]

theorem decode_reset {w : Cmd} (h : opField w = 0b11#2) : decode w = .reset := by
  simp [decode, h]

/-! ## Decoding after encoding, and encoding after decoding -/

theorem opField_encode (i : Instr) : opField (encode i) = opcode i := by
  cases i with
  | nop => exact Laws.OpField.nop.1
  | process sample => exact (Laws.OpField.process sample).1
  | load a0 a1 a2 b1 b2 => exact (Laws.OpField.load a0 a1 a2 b1 b2).1
  | reset => exact Laws.OpField.reset.1

/-- Decoding inverts encoding, for every command and operand. -/
theorem decode_encode (i : Instr) : decode (encode i) = i := by
  have hop := opField_encode i
  cases i with
  | nop => exact decode_nop hop
  | process sample =>
    rw [decode_process hop, encode, dinField_assembleCmd]
  | load a0 a1 a2 b1 b2 =>
    rw [decode_load hop, encode, coefField_assembleCmd, coefLanes_coefBus]
  | reset => exact decode_reset hop

/-- The opcode table numbers a word as the number it is, so its decoder answers what `decode` does. -/
theorem decodeTableWord_toNat (w : Cmd) : decodeTableWord 194 w.toNat = some (decode w) := by
  simp [decodeTableWord, decodeNat, Nat.mod_eq_of_lt w.isLt, w.isLt]

/-- Settles O2: the fields come back out of the encoded word, and every word survives the table's numbering and the ports. -/
theorem decodeEncodeRoundTrip : Obligations.DecodeEncodeRoundTrip := fun i =>
  ⟨decode_encode i, (decodeTableWord_toNat _).trans (congrArg some (decode_encode i)), Port.cmd_ofCmd _⟩

/-- Encoding what a word decodes to gives the word with the buses its command does not use at 0 (R49, R55). -/
theorem encode_decode (w : Cmd) :
    encode (decode w) =
      assembleCmd (opField w) (if opField w = 0b01#2 then dinField w else 0#32)
        (if opField w = 0b10#2 then coefField w else 0#160) := by
  obtain h | h | h | h := op_cases (opField w)
  · simp [decode_nop h, encode, opcode, h]
  · simp [decode_process h, encode, opcode, h]
  · have lanes := coefBus_coefLanes (coefField w)
    simp [decode_load h, encode, opcode, h, lanes]
  · simp [decode_reset h, encode, opcode, h]

/-- Settles O3, code by code; the second part is `decodeNat` as it is defined. -/
theorem encodeDecodeKeepsUsedBuses : Obligations.EncodeDecodeKeepsUsedBuses :=
  ⟨encode_decode, fun _ => rfl⟩

/-! ## The buses a command uses, and those it does not -/

/-- Tuples with one `op` that agree on the bus it uses carry the same command (R49). -/
theorem decode_cmd_congr {p q : Port} (hop : p.op = q.op) (hdin : p.op = 0b01#2 → p.din = q.din)
    (hcoef : p.op = 0b10#2 → p.coef = q.coef) : decode p.cmd = decode q.cmd := by
  have hp : opField p.cmd = p.op := p.opField_cmd
  have hq : opField q.cmd = p.op := q.opField_cmd.trans hop.symm
  obtain h | h | h | h := op_cases p.op
  · rw [decode_nop (hp.trans h), decode_nop (hq.trans h)]
  · rw [decode_process (hp.trans h), decode_process (hq.trans h), p.dinField_cmd, q.dinField_cmd, hdin h]
  · rw [decode_load (hp.trans h), decode_load (hq.trans h), p.coefField_cmd, q.coefField_cmd, hcoef h]
  · rw [decode_reset (hp.trans h), decode_reset (hq.trans h)]

theorem step_port (p : Port) (s : State) (rest : List Input) :
    step { s with inputs := .port p :: rest } = stepPort p { s with inputs := rest } :=
  step_of_cons (s := { s with inputs := .port p :: rest }) rfl

/-- Settles O4: both tuples decode to one command, and the step runs that command. -/
theorem unusedBusesAreIgnored : Obligations.UnusedBusesAreIgnored := by
  intro p q hp hq hop hdin hcoef
  have hcmd := decode_cmd_congr hop hdin hcoef
  refine ⟨hcmd, fun s rest => ?_⟩
  rw [step_port, step_port, stepPort_of_not_init _ hp, stepPort_of_not_init _ hq, hcmd]

/-- A slice of the coefficient bus is the slice of `cmd` 34 bits further up (R45). -/
theorem extractLsb'_coefField (w : Cmd) {start len : Nat} (h : start + len ≤ 160) :
    (coefField w).extractLsb' start len = w.extractLsb' (34 + start) len := by
  ext i hi
  simp [coefField, show start + i < 160 by omega, Nat.add_assoc]

/-- Settles O5: the decoder takes the five lanes, and each lane lies in `cmd` 34 bits further up. -/
theorem loadOperandsAreTheLanes : Obligations.LoadOperandsAreTheLanes := by
  intro p h
  have lane {start : Nat} (hlane : start + 32 ≤ 160) :
      p.coef.extractLsb' start 32 = p.cmd.extractLsb' (34 + start) 32 := by
    rw [← extractLsb'_coefField p.cmd hlane, p.coefField_cmd]
  refine ⟨?_, lane (by decide), lane (by decide), lane (by decide), lane (by decide), lane (by decide)⟩
  rw [decode_load (p.opField_cmd.trans h), p.coefField_cmd, coefLanes]

/-- Settles O6: the decoder takes the field `din` as it is. -/
theorem processOperandIsDin : Obligations.ProcessOperandIsDin := by
  intro p h
  refine ⟨?_, p.dinField_cmd.symm⟩
  rw [decode_process (p.opField_cmd.trans h), p.dinField_cmd]

/-! ## Every word is a command, and `init` goes before it -/

/-- Settles O13: a command completes on an initialised cell, its encoding reaches every operand, and there is no fault. -/
theorem everyCommandCompletes : Obligations.EveryCommandCompletes :=
  ⟨fun w _ h => exec_completes (decode w) h, fun x => ⟨_, decode_encode (.process x)⟩,
    fun a0 a1 a2 b1 b2 => ⟨_, decode_encode (.load a0 a1 a2 b1 b2)⟩, fun _ r => nomatch r⟩

/-- Settles O10: with `init = 1` the step is INIT in the state without the tuple, whatever the other ports carry. -/
theorem initTakesPrecedence : Obligations.InitTakesPrecedence := fun s _ _ _ rest =>
  (step_port _ s rest).trans (stepPort_of_init _ rfl)

/-! ## Words and lines written out in the spec -/

/-- Settles O1: the five words, read code by code. -/
theorem specWordsDecode : Obligations.SpecWordsDecode := by
  refine ⟨decode_nop ?_, decode_process ?_, decode_load ?_, decode_load ?_, decode_reset ?_⟩ <;> decide

theorem assembleLine_loadId : assembleLine "LOADID".toList = .ok (presentAll [loadId]) := by decide +kernel

theorem assembleLine_zero : assembleLine "ZERO".toList = .ok (presentAll [zeroSample]) := by decide +kernel

theorem assembleLine_impulse_two : assembleLine "IMPULSE 2".toList = .ok (presentAll (impulse 2)) := by decide +kernel

/-- Settles O56: each line is assembled and listed by evaluation; the pseudo-commands present what R54 names. -/
theorem specTextAssembles : Obligations.SpecTextAssembles := by
  refine ⟨?load, ?listLoad, ?process, ?listProcess, ?listReset,
    assembleLine_loadId.trans ?loadId, assembleLine_zero.trans ?zero, assembleLine_impulse_two⟩
  case load | listLoad | process | listProcess | listReset | loadId | zero => decide +kernel

end Sys2Proof.Machine
end

section
/-! SUPPORT. The datapath family (40_datapath.md R57, R58): what the rounded operations answer. A product, a sum and a
difference of finite operands are one rounding of the exact value, and such a rounding is to nearest and overflows from one
threshold on. -/

namespace Sys2Proof.Machine

/-! ## A signed value rounded once -/

/-- `r` is the rounding of `exact / den` quanta: its magnitude is the rounded one, overflow included, and its sign the exact
value's, either one where that is 0. -/
def RoundsTo (exact : Int) (den : Nat) (r : Word) : Prop :=
  ∃ s, exact = signedUnits s exact.natAbs ∧ r = signed32 s (roundFinite binary32 exact.natAbs den)

theorem natAbs_signedUnits (s : Bool) (n : Nat) : (signedUnits s n).natAbs = n := by
  cases s <;> simp [signedUnits]

theorem signedUnits_mul (s t : Bool) (m n : Nat) :
    signedUnits s m * signedUnits t n = signedUnits (s != t) (m * n) := by
  cases s <;> cases t <;> simp [signedUnits]

theorem signedUnits_natAbs (z : Int) : z = signedUnits (decide (z < 0)) z.natAbs := by
  unfold signedUnits
  by_cases h : z < 0
  · rw [decide_eq_true h, if_pos rfl]; omega
  · rw [decide_eq_false h, if_neg Bool.false_ne_true]; omega

theorem fmul_roundsTo (nan : Word) {p q : Word} (hp : isFinite p = true) (hq : isFinite q = true) :
    RoundsTo (quanta p * quanta q) (2 ^ 149) (fmul nan p q) := by
  have hexact : quanta p * quanta q = signedUnits (signField p != signField q) (magnitude p * magnitude q) := by
    rw [quanta_eq, quanta_eq, signedUnits_mul]
  refine ⟨signField p != signField q, ?_, ?_⟩
  · rw [hexact, natAbs_signedUnits]
  · rw [hexact, natAbs_signedUnits, fmul_finite nan hp hq]

theorem fadd_roundsTo (nan : Word) {p q : Word} (hp : isFinite p = true) (hq : isFinite q = true) :
    RoundsTo (quanta p + quanta q) 1 (fadd nan p q) := by
  rw [fadd_finite nan hp hq]
  by_cases hz : quanta p + quanta q = 0
  · rw [if_pos hz, hz]
    exact ⟨signField p && signField q, by cases signField p && signField q <;> rfl, rfl⟩
  · rw [if_neg hz]
    exact ⟨_, signedUnits_natAbs _, rfl⟩

theorem fsub_roundsTo (nan : Word) {p q : Word} (hp : isFinite p = true) (hq : isFinite q = true) :
    RoundsTo (quanta p - quanta q) 1 (fsub nan p q) := by
  have h := fadd_roundsTo nan hp ((isFinite_negate q).trans hq)
  rwa [quanta_negate, ← sub_eq_add_neg] at h

/-! ## Nearest, ties to even -/

theorem quanta_signed32 (s : Bool) {m : Nat} (h : m ≤ 0x7F800000) :
    quanta (signed32 s m) = signedUnits s (magUnits binary32 m) := by
  rw [quanta_eq, signed32_sign s h, signed32_magnitude s h]

theorem signed32_getLsbD_zero (s : Bool) {m : Nat} (h : m ≤ 0x7F800000) (heven : m % 2 = 0) :
    (signed32 s m).getLsbD 0 = false := by
  rw [BitVec.getLsbD, Nat.testBit_zero, signed32_toNat s h, decide_eq_false_iff_not]
  cases s <;> simp <;> omega

/-- Between values of one sign the distance is that of the magnitudes. -/
theorem abs_signedUnits_sub (s : Bool) (m n den : Nat) :
    |signedUnits s m - signedUnits s n * den| = |(m : Int) - n * den| := by
  cases s with
  | false => rfl
  | true =>
    rw [← abs_neg]
    congr 1
    simp only [signedUnits, if_true]
    ring

/-- Between values of opposite signs it is the magnitudes' sum. -/
theorem abs_signedUnits_sub_not (s : Bool) (m n den : Nat) :
    |signedUnits s m - signedUnits (!s) n * den| = (m : Int) + n * den := by
  have hnonneg : (0 : Int) ≤ m + n * den := by positivity
  cases s with
  | false => simp [signedUnits, abs_of_nonneg hnonneg]
  | true =>
    rw [← abs_neg, ← abs_of_nonneg hnonneg]
    congr 1
    simp [signedUnits, add_comm]

/-- A signed value has the sign `s` too, or it is not 0 and has the opposite sign. -/
theorem sameSign_or_opposite (s t : Bool) (n : Nat) :
    signedUnits t n = signedUnits s n ∨ t = !s ∧ 0 < n := by
  rcases Bool.eq_or_eq_not t s with rfl | ht
  · exact .inl rfl
  · rcases Nat.eq_zero_or_pos n with rfl | hn
    · cases t <;> cases s <;> exact .inl rfl
    · exact .inr ⟨ht, hn⟩

theorem roundFinite_of_finite {s : Bool} {num den : Nat} (h : isFinite (signed32 s (roundFinite binary32 num den)) = true) :
    roundFinite binary32 num den = roundMag binary32 num den := by
  rw [signed32_finite s (roundFinite32_le num den), decide_eq_true_iff] at h
  unfold roundFinite at *
  rw [infMag32] at *
  omega

/-- A finite rounding of a value is the nearest pattern to it, ties to even. -/
theorem RoundsTo.isNearestEven {exact : Int} {den : Nat} {r : Word} (hr : RoundsTo exact den r) (hd : 0 < den)
    (hfin : isFinite r = true) : IsNearestEven exact den r := by
  obtain ⟨s, hexact, rfl⟩ := hr
  have hle := roundFinite32_le exact.natAbs den
  rw [roundFinite_of_finite hfin] at hle ⊢
  generalize exact.natAbs = num at *
  subst hexact
  have hnear := roundMag_nearest binary32 num hd
  intro v _
  have hv : quanta v = signedUnits (signField v) (magUnits binary32 (v.toNat % 2 ^ 31)) := by
    rw [quanta_eq, magnitude_eq]
  generalize v.toNat % 2 ^ 31 = m at hv
  unfold distance
  rw [quanta_signed32 s hle, abs_signedUnits_sub, hv]
  rcases sameSign_or_opposite s (signField v) (magUnits binary32 m) with hsame | ⟨hopp, hpos⟩
  · obtain ⟨hmin, htie⟩ := hnear m
    rw [hsame, abs_signedUnits_sub]
    exact ⟨hmin, fun heq hne => signed32_getLsbD_zero s hle (htie heq (fun e => hne (by rw [e])) (by decide))⟩
  · -- a zero is nearer than a value of the opposite sign, and no nearer than the result
    have hzero := (hnear 0).1
    have hposden : (0 : Int) < magUnits binary32 m * den := by exact_mod_cast Nat.mul_pos hpos hd
    rw [magUnits_of_lt (Nat.two_pow_pos _), Nat.cast_zero, zero_mul, sub_zero, Nat.abs_cast] at hzero
    rw [hopp, abs_signedUnits_sub_not]
    exact ⟨by omega, fun heq => by omega⟩

/-- Settles O25: a product of finite operands is the exact product rounded once. -/
theorem mulRoundsToNearestEven : Obligations.MulRoundsToNearestEven := fun nan _ _ hp hq =>
  (fmul_roundsTo nan hp hq).isNearestEven (Nat.two_pow_pos _)

/-- Settles O26: a sum, and a difference, of finite operands is the exact one rounded once. -/
theorem addRoundsToNearestEven : Obligations.AddRoundsToNearestEven := fun nan _ _ hp hq =>
  ⟨(fadd_roundsTo nan hp hq).isNearestEven one_pos, (fsub_roundsTo nan hp hq).isNearestEven one_pos⟩

/-! ## Overflow -/

/-- The rounded magnitude stays below the pattern of infinity up to half a unit above the largest finite number: in the top
binade of the finite numbers, 253, a significand counts `2^253` quanta, and the tie below `2^24` goes up to it. -/
theorem roundMag_lt_infinity (num : Nat) {den : Nat} (hd : 0 < den) :
    roundMag binary32 num den < 0x7F800000 ↔ num < 33554431 * 2 ^ 252 * den := by
  obtain ⟨s, hround, hk, hnormal, hlo, hhi⟩ := roundMag_spec binary32 num hd
  rw [show binary32.fracBits = 23 from rfl] at hround hk hnormal hlo hhi
  rw [hround, mul_assoc, mul_comm _ den]
  rw [pow_add, mul_assoc, mul_comm _ den] at hlo hhi
  have hunit : 0 < den * 2 ^ s := Nat.mul_pos hd (Nat.two_pow_pos _)
  obtain ⟨hbelow, habove⟩ := roundHalfEven_bounds num hunit
  have htie := roundHalfEven_tie (num := num) (k := 2 ^ 24 - 1) hunit
  generalize roundHalfEven num (den * 2 ^ s) = k at *
  rcases lt_trichotomy s 253 with hs | rfl | hs
  · have hscale : den * 2 ^ s ≤ den * 2 ^ 252 := by gcongr <;> omega
    exact iff_of_true (by omega) (by omega)
  · constructor
    · intro hlt
      by_contra hge
      have hle : k * (den * 2 ^ 253) ≤ (2 ^ 24 - 1) * (den * 2 ^ 253) := Nat.mul_le_mul_right _ (by omega)
      -- so the value is the tie, and `k`, which is even, is below `2^24 - 1` too
      have hlt' : k * (den * 2 ^ 253) ≤ (2 ^ 24 - 2) * (den * 2 ^ 253) := Nat.mul_le_mul_right _ (by omega)
      omega
    · intro hlt
      have hk' : k < 2 ^ 24 := Nat.lt_of_mul_lt_mul_right (a := den * 2 ^ 253) (by omega)
      omega
  · have hscale : 4 * (den * 2 ^ 252) ≤ den * 2 ^ s := by
      calc 4 * (den * 2 ^ 252) = den * 2 ^ 254 := by ring
        _ ≤ den * 2 ^ s := by gcongr <;> omega
    exact iff_of_false (by omega) (by omega)

/-- A rounding is finite exactly when the exact magnitude is below that threshold. -/
theorem RoundsTo.isFinite_iff {exact : Int} {den : Nat} {r : Word} (hr : RoundsTo exact den r) (hd : 0 < den) :
    isFinite r = true ↔ |exact| < 33554431 * 2 ^ 252 * den := by
  obtain ⟨s, -, rfl⟩ := hr
  rw [signed32_finite s (roundFinite32_le _ _), decide_eq_true_iff, roundFinite, infMag32, min_lt_iff,
    or_iff_left (lt_irrefl _), roundMag_lt_infinity _ hd, Int.abs_eq_natAbs]
  norm_cast

/-- From the threshold on it is the infinity of the exact value's sign. -/
theorem RoundsTo.eq_infinity {exact : Int} {den : Nat} {r : Word} (hr : RoundsTo exact den r) (hd : 0 < den)
    (hbig : 33554431 * 2 ^ 252 * (den : Int) ≤ |exact|) :
    r = if exact < 0 then 0xFF800000#32 else 0x7F800000#32 := by
  have hnot := (hr.isFinite_iff hd).not.2 hbig.not_gt
  obtain ⟨s, hexact, rfl⟩ := hr
  have hle := roundFinite32_le exact.natAbs den
  rw [signed32_finite s hle, decide_eq_true_iff] at hnot
  rw [show roundFinite binary32 exact.natAbs den = 0x7F800000 by omega]
  have hne : 0 < exact.natAbs := by
    rw [Int.abs_eq_natAbs] at hbig
    omega
  cases s with
  | false =>
    rw [if_neg (by rw [hexact]; simp [signedUnits])]
    rfl
  | true =>
    rw [if_pos (by rw [hexact]; simp [signedUnits]; omega)]
    rfl

/-- Settles O27: the threshold and the sign are those of the one rounding. -/
theorem overflowGivesInfinity : Obligations.OverflowGivesInfinity := by
  intro nan p q hp hq
  have hmul := fmul_roundsTo nan hp hq
  have hadd := fadd_roundsTo nan hp hq
  exact ⟨hmul.isFinite_iff (Nat.two_pow_pos _), hadd.isFinite_iff one_pos,
    hmul.eq_infinity (Nat.two_pow_pos _), hadd.eq_infinity one_pos⟩

/-! ## Signs -/

/-- A product that is no NaN has the exclusive-or of the operands' signs: every case but `0 · ∞` writes it. -/
theorem signField_fmul (nan : Word) {p q : Word} (hp : isNaN p = false) (hq : isNaN q = false)
    (hzi : ¬(isZero p = true ∧ isInf q = true)) (hiz : ¬(isInf p = true ∧ isZero q = true)) :
    signField (fmul nan p q) = (signField p != signField q) := by
  rcases class_cases p with ⟨pfin, -, -⟩ | ⟨-, pinf, -⟩ | ⟨-, -, pnan⟩
  · rcases class_cases q with ⟨qfin, -, -⟩ | ⟨-, qinf, -⟩ | ⟨-, -, qnan⟩
    · rw [fmul_finite nan pfin qfin, signed32_sign _ (roundFinite32_le _ _)]
    · rw [fmul_finite_inf nan pfin qinf, if_neg fun h => hzi ⟨h, qinf⟩, signed32_sign _ le_rfl]
    · cases hq.symm.trans qnan
  · rcases class_cases q with ⟨qfin, -, -⟩ | ⟨-, qinf, -⟩ | ⟨-, -, qnan⟩
    · rw [fmul_inf_finite nan pinf qfin, if_neg fun h => hiz ⟨pinf, h⟩, signed32_sign _ le_rfl]
    · rw [fmul_inf_inf nan pinf qinf, signed32_sign _ le_rfl]
    · cases hq.symm.trans qnan
  · cases hp.symm.trans pnan

/-- An exact zero sum is `+0` unless both operands are `-0`: two values that are not positive cancel only as zeros. -/
theorem fadd_of_sum_zero (nan : Word) {p q : Word} (hp : isFinite p = true) (hq : isFinite q = true)
    (hsum : quanta p + quanta q = 0) :
    fadd nan p q = if p = 0x80000000#32 ∧ q = 0x80000000#32 then 0x80000000#32 else 0x00000000#32 := by
  rw [fadd_finite nan hp hq, if_pos hsum]
  cases hneg : signField p && signField q with
  | true =>
    obtain ⟨hps, hqs⟩ := Bool.and_eq_true_iff.1 hneg
    have hzero : magnitude p = 0 ∧ magnitude q = 0 := by
      rw [quanta, quanta, if_pos hps, if_pos hqs] at hsum
      omega
    have hpz := isZero_eta ((magnitude_eq_zero p).1 hzero.1)
    have hqz := isZero_eta ((magnitude_eq_zero q).1 hzero.2)
    rw [hps] at hpz
    rw [hqs] at hqz
    exact (if_pos ⟨hpz, hqz⟩).symm
  | false =>
    refine (if_neg ?_).symm
    rintro ⟨rfl, rfl⟩
    exact absurd hneg (by decide)

theorem signField_fadd (nan : Word) {p q : Word} (hp : isFinite p = true) (hq : isFinite q = true)
    (hsum : quanta p + quanta q ≠ 0) : signField (fadd nan p q) = decide (quanta p + quanta q < 0) := by
  rw [fadd_finite nan hp hq, if_neg hsum, signed32_sign _ (roundFinite32_le _ _)]

/-- Settles O28: the product case by case, the sum from its one rounding; a subtraction is defined as that addition. -/
theorem signsOfResults : Obligations.SignsOfResults := by
  refine ⟨fun nan p q hp hq hzi hiz => signField_fmul nan hp hq hzi hiz,
    fun nan p q hp hq hsum => fadd_of_sum_zero nan hp hq hsum, fun nan p q hp hq hsum => ?_, fun _ _ _ _ => rfl⟩
  rw [signField_fadd nan hp hq hsum, decide_eq_true_iff]

/-! ## Infinities -/

theorem isInf_signed32_infinity (s : Bool) : isInf (signed32 s 0x7F800000) = true := by
  rw [signed32_inf s le_rfl]
  rfl

/-- Settles O29, operand class by operand class. -/
theorem infinityRules : Obligations.InfinityRules := by
  intro nan p q
  refine ⟨fun hp hq => ?zeroTimesInf, fun hp hq hz => ?infTimesFinite, fun hp hq => ?infTimesInf,
    fun hp hq hs => ?opposite, fun hp hq hs => ?same, fun hp hq => ?infPlusFinite⟩
  case zeroTimesInf =>
    have hfin := isFinite_of_isZero hp
    exact ⟨by rw [fmul_finite_inf nan hfin hq, if_pos hp], by rw [fmul_inf_finite nan hq hfin, if_pos hp]⟩
  case infTimesFinite =>
    have hnz : ¬isZero q = true := Bool.eq_false_iff.1 hz
    rw [fmul_inf_finite nan hp hq, fmul_finite_inf nan hq hp, if_neg hnz, if_neg hnz]
    exact ⟨isInf_signed32_infinity _, isInf_signed32_infinity _⟩
  case infTimesInf =>
    rw [fmul_inf_inf nan hp hq]
    exact isInf_signed32_infinity _
  case opposite => rw [fadd_inf_inf nan hp hq, if_neg hs]
  case same => rw [fadd_inf_inf nan hp hq, if_pos hs, ← isInf_eta hp]
  case infPlusFinite => rw [fadd_inf_finite nan hp hq, fadd_finite_inf nan hq hp, ← isInf_eta hp, and_self]

/-! ## NaNs (R58) -/

theorem isQuietNaN_drawnNaN (n : Nat) : isQuietNaN (drawnNaN n) = true := isQuietNaN_quietNaN _

/-- A result that is the draw or no NaN is quiet where it is a NaN. -/
theorem isQuietNaN_of_draw {n : Nat} {r : Word} (h : r = drawnNaN n ∨ isNaN r = false) (hr : isNaN r = true) :
    isQuietNaN r = true := by
  rcases h with rfl | h
  · exact isQuietNaN_drawnNaN n
  · cases h.symm.trans hr

theorem signField_quietNaN (d : BitVec 23) : signField (quietNaN d) = d.getLsbD 22 := by
  simp only [signField, quietNaN, BitVec.getLsbD_append]
  simp

/-- Patterns of one sign and one magnitude pattern are the same. -/
theorem eq_of_sign_of_mod {v w : Word} (hs : signField v = signField w) (hm : v.toNat % 2 ^ 31 = w.toNat % 2 ^ 31) :
    v = w := by
  rw [← signed32_eta v, ← signed32_eta w, hs, hm]

/-- A quiet NaN is the draw of its sign bit and its 22 payload bits. -/
theorem quietNaN_of_isQuietNaN {v : Word} (h : isQuietNaN v = true) :
    quietNaN (v.extractLsb' 31 1 ++ v.extractLsb' 0 22) = v := by
  apply eq_of_sign_of_mod
  · rw [signField_quietNaN]
    simp only [signField, BitVec.getLsbD_append]
    simp
  · have hpayload : (v.extractLsb' 31 1 ++ v.extractLsb' 0 22).toNat % 2 ^ 22 = v.toNat % 2 ^ 22 := by
      rw [BitVec.toNat_append, Nat.or_mod_two_pow]
      simp [BitVec.extractLsb'_toNat, Nat.shiftLeft_eq]
    rw [isQuietNaN_eq, decide_eq_true_iff] at h
    rw [quietNaN_toNat_mod, hpayload]
    omega

/-- Settles O30: a NaN operand takes the draw, a NaN result is the draw, and the draws are the quiet NaNs. -/
theorem nanResultsAreQuiet : Obligations.NaNResultsAreQuiet := by
  refine ⟨fun n p q h => ⟨isNaN_fmul n h, isNaN_fadd n h, isNaN_fsub n h⟩, fun n p q => ?_, fun v => ?_⟩
  · exact ⟨isQuietNaN_of_draw (fmul_nan_cases _ p q), isQuietNaN_of_draw (fadd_nan_cases _ p q),
      isQuietNaN_of_draw (fadd_nan_cases _ p (negate q))⟩
  · constructor
    · exact fun h => ⟨_, quietNaN_of_isQuietNaN h⟩
    · rintro ⟨d, rfl⟩
      exact isQuietNaN_quietNaN d

end Sys2Proof.Machine
end

section
/-! SUPPORT. The datapath family (40_datapath.md): what PROCESS makes of non-finite operands, and runs of commands from a
non-finite output. -/

namespace Sys2Proof.Machine

/-! ## Non-finite operands (R64 items 7 and 8) -/

/-- An operation that passes a non-finite operand on has finite operands where its result is finite. -/
theorem operands_finite_of_result {f : Word → Word → Word}
    (hf : ∀ p q, isFinite p = false ∨ isFinite q = false → isFinite (f p q) = false) {p q : Word}
    (h : isFinite (f p q) = true) : isFinite p = true ∧ isFinite q = true := by
  by_contra hpq
  rw [hf p q (by simpa only [not_and_or, Bool.not_eq_true] using hpq)] at h
  cases h

theorem fmul_operands_finite {n : Nat} {p q : Word} (h : isFinite (fmul (drawnNaN n) p q) = true) :
    isFinite p = true ∧ isFinite q = true := operands_finite_of_result (fmul_not_finite n) h

theorem fadd_operands_finite {n : Nat} {p q : Word} (h : isFinite (fadd (drawnNaN n) p q) = true) :
    isFinite p = true ∧ isFinite q = true := operands_finite_of_result (fadd_not_finite n) h

theorem fsub_operands_finite {n : Nat} {p q : Word} (h : isFinite (fsub (drawnNaN n) p q) = true) :
    isFinite p = true ∧ isFinite q = true := operands_finite_of_result (fsub_not_finite n) h

/-- Every register but `valid` holds a finite pattern. -/
structure Cell.AllFinite (c : Cell) : Prop where
  a0 : isFinite c.a0 = true
  a1 : isFinite c.a1 = true
  a2 : isFinite c.a2 = true
  b1 : isFinite c.b1 = true
  b2 : isFinite c.b2 = true
  x1 : isFinite c.x1 = true
  x2 : isFinite c.x2 = true
  y1 : isFinite c.y1 = true
  y2 : isFinite c.y2 = true

/-- A finite `acc` needs a finite sample and finite registers: each operation passes a non-finite operand on. -/
theorem recurrence_operands_finite {n : Nat} {x : Word} {c : Cell} (h : isFinite (recurrence n x c) = true) :
    isFinite x = true ∧ c.AllFinite := by
  obtain ⟨hs3, ht4⟩ := fsub_operands_finite h
  obtain ⟨hs2, ht3⟩ := fsub_operands_finite hs3
  obtain ⟨hs1, ht2⟩ := fadd_operands_finite hs2
  obtain ⟨ht0, ht1⟩ := fadd_operands_finite hs1
  obtain ⟨ha0, hx⟩ := fmul_operands_finite ht0
  obtain ⟨ha1, hx1⟩ := fmul_operands_finite ht1
  obtain ⟨ha2, hx2⟩ := fmul_operands_finite ht2
  obtain ⟨hb1, hy1⟩ := fmul_operands_finite ht3
  obtain ⟨hb2, hy2⟩ := fmul_operands_finite ht4
  exact ⟨hx, ha0, ha1, ha2, hb1, hb2, hx1, hx2, hy1, hy2⟩

/-- A sample or a register that is not finite makes the output of PROCESS not finite. -/
theorem Cell.process_y1_not_finite {x : Word} {c : Cell} (n : Nat) (h : ¬(isFinite x = true ∧ c.AllFinite)) :
    isFinite (c.process n x).y1 = false :=
  clamp_not_finite (Bool.eq_false_iff.2 fun hacc => h (recurrence_operands_finite hacc))

/-- A NaN in `y1` or `y2` reaches the output through one of the last two subtractions. -/
theorem Cell.isNaN_process_y1 {c : Cell} (n : Nat) (x : Word) (h : isNaN c.y1 = true ∨ isNaN c.y2 = true) :
    isNaN (c.process n x).y1 = true := by
  refine isNaN_clamp (isNaN_fsub _ ?_)
  cases h with
  | inl h1 => exact .inl (isNaN_fsub _ (.inr (isNaN_fmul _ (.inr h1))))
  | inr h2 => exact .inr (isNaN_fmul _ (.inr h2))

/-- Settles O32: the output is that of the cell, and the recurrence passes the operand on. -/
theorem nonFiniteAbsorption : Obligations.NonFiniteAbsorption := by
  intro s x hi
  refine ⟨_, exec_process x hi, fun h => s.cell.process_y1_not_finite s.draws ?_, s.cell.isNaN_process_y1 s.draws x⟩
  rintro ⟨hx, ha0, ha1, ha2, hb1, hb2, hx1, hx2, hy1, hy2⟩
  simp [*] at h

/-! ## Zero history (R64 items 1 and 2) -/

/-- The four products of the coefficients with the delay lines are zeros, of either sign. -/
structure Cell.DelayedProductsZero (n : Nat) (c : Cell) : Prop where
  a1x1 : isZero (fmul (drawnNaN (n + 1)) c.a1 c.x1) = true
  a2x2 : isZero (fmul (drawnNaN (n + 2)) c.a2 c.x2) = true
  b1y1 : isZero (fmul (drawnNaN (n + 3)) c.b1 c.y1) = true
  b2y2 : isZero (fmul (drawnNaN (n + 4)) c.b2 c.y2) = true

/-- Then `acc` is `a0 · sample` where that is neither a zero nor a NaN: the four sums leave it as it is. -/
theorem recurrence_eq_product {n : Nat} {x : Word} {c : Cell} (h : c.DelayedProductsZero n)
    (hz : isZero (fmul (drawnNaN n) c.a0 x) = false) (hn : isNaN (fmul (drawnNaN n) c.a0 x) = false) :
    recurrence n x c = fmul (drawnNaN n) c.a0 x := by
  rw [recurrence, fadd_zero_right _ hz hn h.a1x1, fadd_zero_right _ hz hn h.a2x2, fsub_zero_right _ hz hn h.b1y1,
    fsub_zero_right _ hz hn h.b2y2]

theorem isZero_recurrence {n : Nat} {x : Word} {c : Cell} (h : c.DelayedProductsZero n)
    (hz : isZero (fmul (drawnNaN n) c.a0 x) = true) : isZero (recurrence n x c) = true :=
  fsub_zeros _ (fsub_zeros _ (fadd_zeros _ (fadd_zeros _ hz h.a1x1) h.a2x2) h.b1y1) h.b2y2

theorem not_subnormal_of_isNormal {v : Word} (h : isNormal v = true) : isSubnormal v = false := by
  rw [isNormal_eq, decide_eq_true_iff] at h
  rw [isSubnormal_eq, decide_eq_false_iff_not]
  omega

theorem not_zero_of_isNormal {v : Word} (h : isNormal v = true) : isZero v = false := by
  rw [isNormal_eq, decide_eq_true_iff] at h
  rw [isZero_eq, decide_eq_false_iff_not]
  omega

/-- Settles O31: the delayed products are zeros, and so `acc` is `a0 · sample` or a zero; `1.0` multiplies exactly. -/
theorem zeroHistoryOutput : Obligations.ZeroHistoryOutput := by
  intro s x hi hx1 hx2 hy1 hy2 ha0 ha1 ha2 hb1 hb2 hx
  have hprod := not_nan_fmul_of_finite (drawnNaN s.draws) ha0 hx
  have hdelayed : s.cell.DelayedProductsZero s.draws :=
    ⟨fmul_zero_right _ ha1 (by rw [hx1]; rfl), fmul_zero_right _ ha2 (by rw [hx2]; rfl),
      fmul_zero_right _ hb1 (by rw [hy1]; rfl), fmul_zero_right _ hb2 (by rw [hy2]; rfl)⟩
  have nonzero (hz : isZero (fmul (drawnNaN s.draws) s.cell.a0 x) = false) :
      (s.cell.process s.draws x).y1 = clamp (fmul (drawnNaN s.draws) s.cell.a0 x) := by
    rw [Cell.process_y1, recurrence_eq_product hdelayed hz hprod]
  refine ⟨_, exec_process x hi, nonzero, fun hz => ?zero, fun hone hnormal => ?one⟩
  case zero =>
    have hacc := isZero_recurrence hdelayed hz
    exact (congrArg isZero (clamp_zero hacc)).trans hacc
  case one =>
    have hmul : fmul (drawnNaN s.draws) s.cell.a0 x = s.cell.a0 := by
      rw [hone]
      exact fmul_one_right _ (not_nan_of_isFinite ha0)
    rw [hmul, clamp_of_not_subnormal (not_subnormal_of_isNormal hnormal)] at nonzero
    exact nonzero (not_zero_of_isNormal hnormal)

/-! ## Runs without RESET (R133) -/

/-- A command other than RESET leaves a non-finite `y1` non-finite, and a NaN in it a NaN. -/
theorem exec_keeps_y1_not_finite {i : Instr} {s t : State} (h : exec i s = .next t) (hne : i ≠ .reset) :
    (isFinite s.cell.y1 = false → isFinite t.cell.y1 = false) ∧ (isNaN s.cell.y1 = true → isNaN t.cell.y1 = true) := by
  obtain ⟨-, ⟨rfl, rfl⟩ | ⟨x, rfl, rfl⟩ | ⟨a0, a1, a2, b1, b2, rfl, rfl⟩ | ⟨rfl, rfl⟩⟩ := exec_next h
  · exact ⟨id, id⟩
  · refine ⟨fun hy => s.cell.process_y1_not_finite s.draws ?_, fun hy => s.cell.isNaN_process_y1 s.draws x (.inl hy)⟩
    exact fun hfin => by simp [hfin.2.y1] at hy
  · exact ⟨id, id⟩
  · exact absurd rfl hne

/-- Settles O33, by induction on the commands: each keeps what `y1` is for the run that follows. -/
theorem nonFiniteOutputPersists : Obligations.NonFiniteOutputPersists := by
  intro is
  induction is with
  | nil => exact fun s _ _ => ⟨s, rfl, id, id⟩
  | cons i is ih =>
    intro s hi hno
    obtain ⟨hne, hrest⟩ := not_or.1 (List.mem_cons.not.1 hno)
    obtain ⟨r, hr, hri⟩ := exec_completes i hi
    obtain ⟨keepsNonFinite, keepsNaN⟩ := exec_keeps_y1_not_finite hr (Ne.symm hne)
    obtain ⟨t, ht, nonFinite, nan⟩ := ih r hri hrest
    exact ⟨t, (execAll_cons hr is).trans ht, nonFinite ∘ keepsNonFinite, nan ∘ keepsNaN⟩

end Sys2Proof.Machine
end

section
/-! SUPPORT. The datapath family (40_datapath.md): the whole effect of each command, and what runs of commands are worth. -/

namespace Sys2Proof.Machine

/-! ## The four commands (R62, R63, R66, R68) -/

theorem replicate_nop_exec (k : Nat) (i : Instr) {s : State} (h : s.initialised = true) :
    execAll (List.replicate k .nop ++ [i]) s = exec i s := by
  induction k generalizing s with
  | zero => exact execAll_one i s
  | succ k ih =>
    calc execAll (List.replicate (k + 1) .nop ++ [i]) s
        = execAll (List.replicate k .nop ++ [i]) { s with cell := s.cell.nop } := execAll_cons (exec_nop h) _
      _ = exec i { s with cell := s.cell.nop } := ih (s := { s with cell := s.cell.nop }) h
      _ = exec i s := exec_ignores_valid i s false

/-- Settles O14: NOP writes `valid`, which no command reads. -/
theorem nopEffect : Obligations.NopEffect := fun _ hi =>
  ⟨exec_nop hi, fun k i => replicate_nop_exec k i hi⟩

/-- Settles O15: PROCESS on the machine's cell, with its draws from `draws` on. -/
theorem processEffect : Obligations.ProcessEffect := fun _ x hi => exec_process x hi

/-- Settles O16: the tuple decodes to the LOAD of its lanes. -/
theorem loadEffect : Obligations.LoadEffect := by
  intro s p hi hop
  rw [(loadOperandsAreTheLanes p hop).1]
  exact exec_load _ _ _ _ _ hi

/-- Settles O17: RESET on the machine's cell. -/
theorem resetEffect : Obligations.ResetEffect := fun _ hi => exec_reset hi

/-- Settles O11: the idle step runs NOP. -/
theorem idleStepIsNop : Obligations.IdleStepIsNop := fun _ h => step_of_nil h

/-! ## RESET against INIT (R68) -/

theorem Cell.fresh_load_coeffs (c : Cell) : Cell.fresh.load c.coeffs = c.reset := rfl

theorem exec_load_initCell {s : State} (h : s.initialised = true) :
    exec (.load s.cell.a0 s.cell.a1 s.cell.a2 s.cell.b1 s.cell.b2) s.initCell = .next { s with cell := s.cell.reset } := by
  calc exec (.load s.cell.a0 s.cell.a1 s.cell.a2 s.cell.b1 s.cell.b2) s.initCell
      = .next { s.initCell with cell := Cell.fresh.load s.cell.coeffs } := exec_load _ _ _ _ _ s.initCell_initialised
    _ = .next { s with cell := s.cell.reset } := by rw [Cell.fresh_load_coeffs, State.initCell, ← h]

/-- Settles O18: both runs go on from the same state. -/
theorem resetRunsAsFreshCell : Obligations.ResetRunsAsFreshCell := by
  intro s is hi
  rw [execAll_cons (exec_reset hi), execAll_cons (exec_load_initCell hi)]

/-! ## The clamp (R60) -/

/-- Settles O24: the output is the clamped recurrence. -/
theorem noOutputIsSubnormal : Obligations.NoOutputIsSubnormal := fun _ x hi =>
  ⟨_, exec_process x hi, isSubnormal_clamp _, clamp_of_subnormal, clamp_of_not_subnormal⟩

end Sys2Proof.Machine
end

section
/-! SUPPORT. The coefficient engine family (45_coefficient_engine.md): the filter-type codes, the formulas in exact real
arithmetic, what the gain enters, and the set at 0 dB. -/

namespace Sys2Proof.Machine

/-! ## Filter-type codes (R74) -/

theorem ofCode_eq_none {code : BitVec 3} (h : 6 ≤ code.toNat) : FilterType.ofCode code = none := by
  have all : ∀ c : BitVec 3, 6 ≤ c.toNat → FilterType.ofCode c = none := by decide
  exact all code h

/-- Settles O7: the six codes are those of `FilterType.code`, and every operation decodes its code before anything else. -/
theorem filterTypeCodes : Obligations.FilterTypeCodes := by
  refine ⟨FilterType.ofCode_code .lowpass, FilterType.ofCode_code .highpass, FilterType.ofCode_code .bandpass,
    FilterType.ofCode_code .notch, FilterType.ofCode_code .parametricEQ, FilterType.ofCode_code .allPass, ?_⟩
  intro code h s sr f bw g n k
  have refused (F : FilterType → Host.Outcome State Fault Refusal) : withFilterType code F = .refused .unknownFilterType :=
    withFilterType_none F (ofCode_eq_none h)
  exact ⟨refused _, refused _, refused _, refused _⟩

/-! ## What the formulas read -/

/-- Every type's `b0` is `1 + α`, or `1 + α/amp` for ParametricEQ (R78 to R83). -/
theorem unnormalised_b0 (type : FilterType) (f sr bw g : Binary64) :
    (unnormalised type f sr bw g).b0 =
      .add (.nat 1) (if type = .parametricEQ then .div (alpha f sr bw) (amplitude g) else alpha f sr bw) := by
  cases type <;> rfl

theorem unnormalised_gain_irrel {type : FilterType} (f sr bw g h : Binary64) (hne : type ≠ .parametricEQ) :
    unnormalised type f sr bw g = unnormalised type f sr bw h := by
  cases type with
  | parametricEQ => exact absurd rfl hne
  | lowpass | highpass | bandpass | notch | allPass => rfl

theorem coeffsWith_gain_irrel (E : FilterType → Normalised → Coeffs) {type : FilterType} (f sr bw g h : Binary64)
    (hne : type ≠ .parametricEQ) : coeffsWith E type f sr bw g = coeffsWith E type f sr bw h := by
  rw [coeffsWith, unnormalised_gain_irrel f sr bw g h hne, coeffsWith]

/-- Settles O39: the machine's engine is one such evaluation for these types, and their formulas do not read the gain. -/
theorem gainIsInertForOtherTypes : Obligations.GainIsInertForOtherTypes := by
  intro E type f sr bw g h hne
  refine ⟨?_, coeffsWith_gain_irrel E f sr bw g h hne⟩
  rw [coeffs_of_ne f sr bw g hne, coeffs_of_ne f sr bw h hne, coeffsWith_gain_irrel Config.coefEval f sr bw g h hne]

/-! ## The set at 0 dB (R87) -/

/-- Settles O41: the set is the unity set. -/
theorem machineEngineUnityAtZeroGain : Obligations.MachineEngineUnityAtZeroGain := by
  intro f sr bw g hg
  simp only [coeffs_zero_gain f sr bw hg]
  refine ⟨rfl, rfl, fun hb0 => ?_⟩
  rw [hb0]
  exact unitySet_true_a0 _

theorem unitySet_true_of_unity {k : Coeffs} (h0 : k.a0 = one) (h1 : k.a1 = k.b1) (h2 : k.a2 = k.b2) :
    unitySet true k = k := by
  obtain ⟨a0, a1, a2, b1, b2⟩ := k
  cases h0
  cases h1
  cases h2
  rfl

/-- With an amplitude of 1 that leaves `α` as it is, the ParametricEQ numerator is the denominator, before normalisation. -/
theorem evalWith_parametricEQ_unity {α : Type} (A : CoefArith α) (f sr bw : Binary64) {g : Binary64}
    (hamp : evalWith A (amplitude g) = A.nat 1)
    (hmul : A.mul (evalWith A (alpha f sr bw)) (A.nat 1) = evalWith A (alpha f sr bw))
    (hdiv : A.div (evalWith A (alpha f sr bw)) (A.nat 1) = evalWith A (alpha f sr bw)) :
    let u := unnormalised .parametricEQ f sr bw g
    evalWith A u.a0 = evalWith A u.b0 ∧ evalWith A u.a2 = evalWith A u.b2 := by
  simp only [unnormalised, evalWith, hamp, hmul, hdiv, and_self]

/-- Settles O40: each quotient of the numerator is the quotient of the denominator, and `b0` by itself is 1. -/
theorem parametricUnityAtZeroGain : Obligations.ParametricUnityAtZeroGain := by
  intro α A f sr bw al b0 hpow hmul hdiv hone k
  obtain ⟨ha0, ha2⟩ := evalWith_parametricEQ_unity A f sr bw (g := 0#64) hpow hmul hdiv
  have hk0 : k.a0 = one := (congrArg (fun x => A.toBinary32 (A.div x b0)) ha0).trans hone
  have hk2 : k.a2 = k.b2 := congrArg (fun x => A.toBinary32 (A.div x b0)) ha2
  exact ⟨hk0, rfl, hk2, unitySet_true_of_unity hk0 rfl hk2⟩

/-! ## Exact real arithmetic -/

/-- The arithmetic of the reals, with their own functions; how a parameter is read and a result rounded is open. -/
structure IsExactReal (A : CoefArith ℝ) : Prop where
  nat (n : Nat) : A.nat n = n
  pi : A.pi = Real.pi
  add (x y : ℝ) : A.add x y = x + y
  sub (x y : ℝ) : A.sub x y = x - y
  mul (x y : ℝ) : A.mul x y = x * y
  div (x y : ℝ) : A.div x y = x / y
  neg (x : ℝ) : A.neg x = -x
  sin (x : ℝ) : A.sin x = Real.sin x
  cos (x : ℝ) : A.cos x = Real.cos x
  ln (x : ℝ) : A.ln x = Real.log x
  pow10 (x : ℝ) : A.pow10 x = (10 : ℝ) ^ x

section
variable {A : CoefArith ℝ} (hA : IsExactReal A) (f sr bw g : Binary64)
include hA

theorem evalWith_omega : evalWith A (omega f sr) = 2 * Real.pi * A.input f / A.input sr := by
  simp only [omega, two, evalWith, hA.nat, hA.pi, hA.mul, hA.div, Nat.cast_ofNat]

theorem evalWith_sinOmega : evalWith A (sinOmega f sr) = Real.sin (2 * Real.pi * A.input f / A.input sr) := by
  rw [sinOmega, evalWith, hA.sin, evalWith_omega hA]

theorem evalWith_cosOmega : evalWith A (cosOmega f sr) = Real.cos (2 * Real.pi * A.input f / A.input sr) := by
  rw [cosOmega, evalWith, hA.cos, evalWith_omega hA]

theorem evalWith_alpha :
    evalWith A (alpha f sr bw) =
      Real.sin (2 * Real.pi * A.input f / A.input sr) *
        Real.sin (Real.log 2 / 2 * A.input bw * (2 * Real.pi * A.input f / A.input sr) /
          Real.sin (2 * Real.pi * A.input f / A.input sr)) := by
  simp only [alpha, two, evalWith, evalWith_sinOmega hA, evalWith_omega hA, hA.nat, hA.mul, hA.div, hA.sin, hA.ln,
    Nat.cast_ofNat]

theorem evalWith_amplitude : evalWith A (amplitude g) = (10 : ℝ) ^ (A.input g / 40) := by
  simp only [amplitude, evalWith, hA.nat, hA.div, hA.pow10, Nat.cast_ofNat]

end

/-- Settles O38: the six values type by type, over the values of `cs`, `α` and `amp`; the quotients as `normalise` is
defined. -/
theorem engineFormulas : Obligations.EngineFormulas := by
  intro A type f sr bw g hnat hpi hadd hsub hmul hdiv hneg hsin hcos hln hpow u ω sn cs α amp values
  have hA : IsExactReal A := ⟨hnat, hpi, hadd, hsub, hmul, hdiv, hneg, hsin, hcos, hln, hpow⟩
  have ecs : evalWith A (cosOmega f sr) = cs := evalWith_cosOmega hA f sr
  have eα : evalWith A (alpha f sr bw) = α := evalWith_alpha hA f sr bw
  have eamp : evalWith A (amplitude g) = amp := evalWith_amplitude hA g
  clear_value cs α amp
  refine ⟨?lowpass, ?highpass, ?bandpass, ?notch, ?parametricEQ, ?allPass, ?quotients⟩
  case quotients => simp only [coeffsWith, roundedWith, normalise, evalWith, hdiv, u]
  all_goals
    rintro rfl
    simp [values, u, unnormalised, two, evalWith, ecs, eα, eamp, hA.nat, hA.add, hA.sub, hA.mul, hA.div, hA.neg]

end Sys2Proof.Machine
end

section
/-! SUPPORT. The coefficient engine family (45_coefficient_engine.md R86, R88): under the default arithmetic, the quotient of
a value by itself and the NaNs of degenerate parameters. -/

namespace Sys2Proof.Machine

/-! ## Division by itself in binary64 (R86) -/

theorem roundFinite64_one {u : Nat} (hu : 0 < u) :
    roundFinite binary64 (u * quantaPerOne binary64) u = 0x3FF0000000000000 := by
  rw [roundFinite, infMag64, mul_comm, ← magUnits64_one, roundMag_exact binary64 _ hu]
  rfl

/-- Settles O42: the exact quotient is the magnitude of 1, which is rounded to itself, and the signs cancel. -/
theorem divisionBySelfIsOne : Obligations.DivisionBySelfIsOne := by
  intro nan v hself hnonzero hinf
  cases hd : datum binary64 v.toNat with
  | nan => simp [eq64, hd, eqDatum] at hself
  | inf s => exact absurd hd (hinf s)
  | fin s u =>
    have hu : u ≠ 0 := by
      rintro rfl
      exact absurd ((eq64_zero_iff v).2 ⟨s, hd⟩) (by simp [hnonzero])
    rw [div64, hd, divDatum, if_neg hu, bne_self_eq_false, roundFinite64_one (Nat.pos_of_ne_zero hu)]
    rfl

/-! ## Zeros and NaNs in binary64 -/

theorem roundFinite_zero (F : Format) (den : Nat) : roundFinite F 0 den = 0 := by
  simp [roundFinite, roundMag, binade, roundHalfEven, Nat.log2_zero]

/-- A zero of either sign, or a NaN: what a product with a zero, and a quotient of one, can be. -/
def ZeroOrNaN (v : Binary64) : Prop := eq64 v 0#64 = true ∨ isNaN64 v = true

/-- An infinity or a NaN: what a quotient by a zero can be. -/
def InfOrNaN (v : Binary64) : Prop := isNaN64 v = true ∨ ∃ s, datum binary64 v.toNat = .inf s

theorem zeroOrNaN_iff (v : Binary64) :
    ZeroOrNaN v ↔ (∃ s, datum binary64 v.toNat = .fin s 0) ∨ datum binary64 v.toNat = .nan := by
  rw [ZeroOrNaN, eq64_zero_iff, isNaN64_iff]

theorem zeroOrNaN_withSign_zero (s : Bool) : ZeroOrNaN (BitVec.ofNat 64 (withSign binary64 s 0)) :=
  (zeroOrNaN_iff _).2 (.inl ⟨s, datum64_withSign s (Nat.zero_le _)⟩)

/-- What an invalid operation answers. -/
theorem zeroOrNaN_invalid (d : BitVec 52) : ZeroOrNaN (BitVec.ofNat 64 (quietNaN64 d).toNat) := by
  rw [ofNat_toNat64]
  exact .inr (isNaN64_quietNaN64 d)

theorem zeroOrNaN_mul64 (d : BitVec 52) (x : Binary64) {y : Binary64} (hy : ZeroOrNaN y) :
    ZeroOrNaN (mul64 (quietNaN64 d) x y) := by
  rcases (zeroOrNaN_iff y).1 hy with ⟨t, hy⟩ | hy
  · rw [mul64, hy]
    cases datum binary64 x.toNat with
    | fin s m =>
      rw [mulDatum, mul_zero, roundFinite_zero]
      exact zeroOrNaN_withSign_zero _
    | nan | inf _ => exact zeroOrNaN_invalid d
  · exact .inr (isNaN64_mul64 d x y (.inr ((isNaN64_iff y).2 hy)))

theorem zeroOrNaN_div64 (d : BitVec 52) {x : Binary64} (y : Binary64) (hx : ZeroOrNaN x) :
    ZeroOrNaN (div64 (quietNaN64 d) x y) := by
  rcases (zeroOrNaN_iff x).1 hx with ⟨s, hx⟩ | hx
  · rw [div64, hx]
    cases datum binary64 y.toNat with
    | nan => exact zeroOrNaN_invalid d
    | inf t => exact zeroOrNaN_withSign_zero _
    | fin t n =>
      rw [divDatum]
      split
      · exact zeroOrNaN_invalid d
      · rw [zero_mul, roundFinite_zero]
        exact zeroOrNaN_withSign_zero _
  · exact .inr (isNaN64_div64 d x y (.inl ((isNaN64_iff x).2 hx)))

/-- `0 / 0` is invalid. -/
theorem isNaN64_div64_of_zeroOrNaN (d : BitVec 52) {x y : Binary64} (hx : ZeroOrNaN x) (hy : ZeroOrNaN y) :
    isNaN64 (div64 (quietNaN64 d) x y) = true := by
  rcases hx with hx | hx
  · rcases hy with hy | hy
    · obtain ⟨s, hx⟩ := (eq64_zero_iff x).1 hx
      obtain ⟨t, hy⟩ := (eq64_zero_iff y).1 hy
      rw [div64, hx, hy, divDatum, if_pos rfl, if_pos rfl, ofNat_toNat64]
      exact isNaN64_quietNaN64 d
    · exact isNaN64_div64 d x y (.inr hy)
  · exact isNaN64_div64 d x y (.inl hx)

theorem infOrNaN_div64_zero (d : BitVec 52) (x : Binary64) {y : Binary64} (hy : eq64 y 0#64 = true) :
    InfOrNaN (div64 (quietNaN64 d) x y) := by
  obtain ⟨t, hy⟩ := (eq64_zero_iff y).1 hy
  have infinity (s : Bool) : InfOrNaN (BitVec.ofNat 64 (withSign binary64 s (infMag binary64))) := by
    rw [infMag64]
    exact .inr ⟨s, datum64_withSign s le_rfl⟩
  have invalid : InfOrNaN (BitVec.ofNat 64 (quietNaN64 d).toNat) := by
    rw [ofNat_toNat64]
    exact .inl (isNaN64_quietNaN64 d)
  rw [div64, hy]
  cases datum binary64 x.toNat with
  | nan => exact invalid
  | inf s => exact infinity _
  | fin s m =>
    rw [divDatum, if_pos rfl]
    split
    · exact invalid
    · exact infinity _

theorem isNaN_narrow (d : BitVec 23) {v : Binary64} (h : isNaN64 v = true) : isNaN (narrow (quietNaN d) v) = true := by
  rw [narrow, (isNaN64_iff v).1 h]
  exact isNaN_quietNaN d

/-! ## Degenerate parameters under the default arithmetic (R88) -/

section
variable {L : HostLibrary} (hzero : ∀ v, eq64 v 0#64 = true → eq64 (L.sin v) 0#64 = true)
  (hnan : ∀ v, InfOrNaN v → isNaN64 (L.sin v) = true)
include hnan

/-- A sample rate of 0 gives `ω` no finite value, and so `sn` is a NaN. -/
theorem isNaN64_sinOmega_of_sampleRate_zero (f : Binary64) {sr : Binary64} (hsr : eq64 sr 0#64 = true) :
    isNaN64 (evalWith (defaultArith L) (sinOmega f sr)) = true :=
  hnan _ (infOrNaN_div64_zero _ _ hsr)

theorem isNaN64_alpha_of_sampleRate_zero (f bw : Binary64) {sr : Binary64} (hsr : eq64 sr 0#64 = true) :
    isNaN64 (evalWith (defaultArith L) (alpha f sr bw)) = true :=
  isNaN64_mul64 _ _ _ (.inl (isNaN64_sinOmega_of_sampleRate_zero hnan f hsr))

include hzero

/-- At 0 Hz `ω` and `sn` are zeros or NaNs, so the quotient inside `α` is a NaN. -/
theorem isNaN64_alpha_of_frequency_zero {f : Binary64} (sr bw : Binary64) (hf : eq64 f 0#64 = true) :
    isNaN64 (evalWith (defaultArith L) (alpha f sr bw)) = true := by
  have hω : ZeroOrNaN (evalWith (defaultArith L) (omega f sr)) := zeroOrNaN_div64 _ _ (zeroOrNaN_mul64 _ _ (.inl hf))
  have hsn : ZeroOrNaN (evalWith (defaultArith L) (sinOmega f sr)) :=
    hω.imp (hzero _) fun h => hnan _ (.inl h)
  exact isNaN64_mul64 _ _ _ (.inr (hnan _ (.inl (isNaN64_div64_of_zeroOrNaN _ (zeroOrNaN_mul64 _ _ hω) hsn))))

end

theorem isNaN64_b0_of_alpha (L : HostLibrary) (type : FilterType) {f sr bw : Binary64} (g : Binary64)
    (h : isNaN64 (evalWith (defaultArith L) (alpha f sr bw)) = true) :
    isNaN64 (evalWith (defaultArith L) (unnormalised type f sr bw g).b0) = true := by
  rw [unnormalised_b0]
  refine isNaN64_add64 _ _ _ (.inr ?_)
  split
  · exact isNaN64_div64 _ _ _ (.inl h)
  · exact h

/-- A quotient by a NaN `b0` is delivered as a NaN. -/
theorem isNaN_quotient_of_b0 (L : HostLibrary) (x : CoefExpr) {b0 : CoefExpr}
    (h : isNaN64 (evalWith (defaultArith L) b0) = true) :
    isNaN ((defaultArith L).toBinary32 (evalWith (defaultArith L) (.div x b0))) = true :=
  isNaN_narrow _ (isNaN64_div64 _ _ _ (.inr h))

/-- Settles O43: `α` is a NaN in both cases, `b0` with it, and every coefficient is a quotient by `b0`. -/
theorem degenerateParametersGiveNaN : Obligations.DegenerateParametersGiveNaN := by
  intro L type f sr bw g hzero hlib hdeg
  have hnan (v : Binary64) (hv : InfOrNaN v) : isNaN64 (L.sin v) = true := (hlib v hv).1
  have hα : isNaN64 (evalWith (defaultArith L) (alpha f sr bw)) = true := by
    cases hdeg with
    | inl hf => exact isNaN64_alpha_of_frequency_zero hzero hnan sr bw hf
    | inr hsr => exact isNaN64_alpha_of_sampleRate_zero hnan f bw hsr
  have quotient (x : CoefExpr) := isNaN_quotient_of_b0 L x (isNaN64_b0_of_alpha L type g hα)
  exact ⟨quotient _, quotient _, quotient _, quotient _, quotient _⟩

end Sys2Proof.Machine
end

section
/-! SUPPORT. The controller family (46_cascade_controller.md): how parameters are compared and clamped, and what each operation
of the band and of the cascade leaves. A completed operation puts a band, or a cascade, which is then there up to NOP steps
(`stepBand_puts`); what is left to say of an operation is which one it puts. -/

namespace Sys2Proof.Machine

/-! ## Comparing parameters (R94) -/

theorem eq64_of_isNaN64_left {v : Binary64} (w : Binary64) (h : isNaN64 v = true) : eq64 v w = false := by
  rw [eq64, (isNaN64_iff v).1 h]
  rfl

theorem eq64_of_isNaN64_right (v : Binary64) {w : Binary64} (h : isNaN64 w = true) : eq64 v w = false := by
  rw [eq64, (isNaN64_iff w).1 h]
  cases datum binary64 v.toNat <;> rfl

theorem eqDatum_self {d : Datum} (h : d ≠ .nan) : eqDatum d d = true := by
  cases d with
  | nan => exact absurd rfl h
  | inf s => exact beq_self_eq_true s
  | fin s m => exact beq_self_eq_true (signedUnits s m)

theorem eq64_self {v : Binary64} (h : isNaN64 v = false) : eq64 v v = true :=
  eqDatum_self fun hd => by simp [(isNaN64_iff v).2 hd] at h

theorem signedUnits_lt_zero (s : Bool) {m : Nat} (hm : m ≠ 0) : decide (signedUnits s m < 0) = s := by
  cases s with
  | false => simp [signedUnits]
  | true => simp [signedUnits]; omega

/-- Data that compare equal are the same, or zeros. -/
theorem eqDatum_cases {d e : Datum} (h : eqDatum d e = true) :
    (d = e ∧ d ≠ .nan) ∨ ∃ s t, d = .fin s 0 ∧ e = .fin t 0 := by
  cases d with
  | nan => cases h
  | inf s =>
    cases e with
    | nan => cases h
    | fin t n => cases h
    | inf t => exact .inl ⟨congrArg _ (beq_iff_eq.1 h), by simp⟩
  | fin s m =>
    cases e with
    | nan => cases h
    | inf t => cases h
    | fin t n =>
      have hunits : signedUnits s m = signedUnits t n := beq_iff_eq.1 h
      obtain rfl : m = n := by rw [← natAbs_signedUnits s m, hunits, natAbs_signedUnits]
      by_cases hm : m = 0
      · exact .inr ⟨s, t, by rw [hm], by rw [hm]⟩
      · exact .inl ⟨by rw [← signedUnits_lt_zero s hm, hunits, signedUnits_lt_zero t hm], by simp⟩

/-- A datum that is no NaN has one pattern. -/
theorem eq_of_datum64_eq {v w : Binary64} (h : datum binary64 v.toNat = datum binary64 w.toNat)
    (hnan : datum binary64 v.toNat ≠ .nan) : v = w := by
  apply BitVec.eq_of_toNat_eq
  rw [toNat64_split v, toNat64_split w]
  cases hv : datum binary64 v.toNat with
  | nan => exact absurd hv hnan
  | inf s =>
    obtain ⟨hvmag, hvsign⟩ := datum64_inf hv
    obtain ⟨hwmag, hwsign⟩ := datum64_inf (h.symm.trans hv)
    rw [← hvsign, ← hwsign, hvmag, hwmag]
  | fin s u =>
    obtain ⟨-, hvmag, hvsign⟩ := datum64_fin hv
    obtain ⟨-, hwmag, hwsign⟩ := datum64_fin (h.symm.trans hv)
    rw [← hvsign, ← hwsign, magUnits64_inj (hvmag.symm.trans hwmag)]

/-- Settles O48: values that are equal denote the same, and only the zeros have two patterns. -/
theorem parameterComparison : Obligations.ParameterComparison := by
  refine ⟨fun v w h => ⟨eq64_of_isNaN64_left w h, eq64_of_isNaN64_right w h⟩, by decide +kernel, fun v => eq64_self, ?_⟩
  intro v w h
  rcases eqDatum_cases h with ⟨hd, hnan⟩ | ⟨s, t, hv, hw⟩
  · exact .inl (eq_of_datum64_eq hd hnan)
  · exact .inr ⟨(eq64_zero_iff v).2 ⟨s, hv⟩, (eq64_zero_iff w).2 ⟨t, hw⟩⟩

/-! ## Which band an operation puts -/

theorem stepBand_puts {op : BandOp} {s : State} {d b : Band} (h : stepBand op s = .next (s.putBand d)) (hd : d = b) :
    ∃ t, stepBand op s = .next t ∧ s.OnlyBandDiffers t ∧ t.band.IdleOf b :=
  ⟨_, h, State.putBand_only d s, hd ▸ State.putBand_idleOf d s⟩

theorem stepBand_init {code : BitVec 3} {type : FilterType} (s : State) (sr f bw g : Binary64) {n : Nat}
    (hcode : FilterType.ofCode code = some type) (hn : channelCountWellFormed n = true) :
    stepBand (.init sr n code f bw g) s = .next (s.putBand (Band.init sr n type f bw g)) :=
  (withFilterType_some _ hcode).trans (if_pos hn)

theorem stepBand_processFrame {s : State} {v : List Word} (hi : s.band.initialised = true)
    (hv : v.length = s.band.channelCount) :
    stepBand (.processFrame v) s =
      .next { s.putBand (s.band.processFrame s.draws v).1 with outSamples := (s.band.processFrame s.draws v).2 } := by
  simp only [stepBand, hi, hv, Bool.not_true, Bool.false_eq_true, if_false, ne_eq, not_true_eq_false]

theorem stepBand_setParams {code : BitVec 3} {type : FilterType} (s : State) (f bw g : Binary64)
    (hcode : FilterType.ofCode code = some type) :
    stepBand (.setParams code f bw g) s = .next (s.putBand (s.band.setParams type f bw g)) :=
  withFilterType_some _ hcode

theorem stepBand_setType {code : BitVec 3} {type : FilterType} (s : State) (hcode : FilterType.ofCode code = some type) :
    stepBand (.setType code) s = .next (s.putBand (s.band.setType type)) :=
  withFilterType_some _ hcode

/-! ## What each operation makes of an initialised band -/

theorem ite_differs {α : Type} (x y : Binary64) (changed kept : α) :
    (if differs x y = true then changed else kept) = if eq64 x y = true then kept else changed := by
  cases h : eq64 x y <;> simp [differs, h]

section
variable {b : Band} (hi : b.initialised = true)
include hi

theorem Band.reset_of_initialised : b.reset = { b with cells := b.cells.map Cell.cleared } :=
  Band.whenInitialised_of _ hi

theorem Band.setEnabled_of_initialised (enabled : Bool) : b.setEnabled enabled = { b with enabled := enabled } :=
  Band.whenInitialised_of _ hi

theorem Band.setType_of_initialised (type : FilterType) :
    b.setType type =
      if type = b.filterType then b else
        Band.loadedWith (Machine.coeffs type b.frequencyHz b.sampleRateHz b.bandwidthOctaves b.gainDb)
          { b with filterType := type } := by
  rw [Band.setType, Band.whenInitialised_of _ hi]
  simp only [bne_iff_ne, ne_eq, ite_not]
  rfl

theorem Band.setFrequency_of_initialised (f : Binary64) :
    b.setFrequency f =
      if eq64 f b.frequencyHz then b else
        Band.loadedWith
          (Machine.coeffs b.filterType (clampFrequency hz0 f) b.sampleRateHz b.bandwidthOctaves b.gainDb)
          { b with frequencyHz := clampFrequency hz0 f } :=
  (Band.whenInitialised_of _ hi).trans (ite_differs ..)

theorem Band.setBandwidth_of_initialised (bw : Binary64) :
    b.setBandwidth bw =
      if eq64 bw b.bandwidthOctaves then b else
        Band.loadedWith (Machine.coeffs b.filterType b.frequencyHz b.sampleRateHz bw b.gainDb)
          { b with bandwidthOctaves := bw } :=
  (Band.whenInitialised_of _ hi).trans (ite_differs ..)

theorem Band.setGainDb_of_initialised (g : Binary64) :
    b.setGainDb g =
      if eq64 g b.gainDb then b
      else if b.filterType = .parametricEQ then
        Band.loadedWith (Machine.coeffs b.filterType b.frequencyHz b.sampleRateHz b.bandwidthOctaves g)
          { b with gainDb := g }
      else { b with gainDb := g } := by
  rw [Band.setGainDb, Band.whenInitialised_of _ hi, ite_differs]
  simp only [beq_iff_eq]
  rfl

end

/-- The parameters given to `setParams` are the stored ones, as far as they are relevant (R94, R95). -/
def Band.ParamsMatch (type : FilterType) (f bw g : Binary64) (b : Band) : Prop :=
  type = b.filterType ∧ eq64 f b.frequencyHz = true ∧ eq64 bw b.bandwidthOctaves = true ∧
    (type = .parametricEQ → eq64 g b.gainDb = true)

theorem Band.paramsMatch_iff (type : FilterType) (f bw g : Binary64) (b : Band) :
    b.ParamsMatch type f bw g ↔
      ¬(type != b.filterType || differs f b.frequencyHz || differs bw b.bandwidthOctaves ||
          (type == .parametricEQ && differs g b.gainDb)) = true := by
  simp only [Band.ParamsMatch, differs, Bool.or_eq_true, Bool.and_eq_true, bne_iff_ne, beq_iff_eq, Bool.not_eq_true',
    not_or, not_and, Bool.not_eq_false, ne_eq, not_not, and_assoc]

/-- What `setParams` stores in every case (R95). -/
def Band.withParams (type : FilterType) (f bw g : Binary64) (b : Band) : Band :=
  { b with filterType := type, frequencyHz := clampFrequency hz20 f, bandwidthOctaves := bw, gainDb := g }

theorem Band.setParams_of_match {type : FilterType} {f bw g : Binary64} {b : Band} (hi : b.initialised = true)
    (h : b.ParamsMatch type f bw g) : b.setParams type f bw g = b.withParams type f bw g :=
  (Band.whenInitialised_of _ hi).trans (if_neg ((Band.paramsMatch_iff ..).1 h))

theorem Band.setParams_of_not_match {type : FilterType} {f bw g : Binary64} {b : Band} (hi : b.initialised = true)
    (h : ¬b.ParamsMatch type f bw g) :
    b.setParams type f bw g =
      (b.withParams type f bw g).loadedWith (Machine.coeffs type (clampFrequency hz20 f) b.sampleRateHz bw g) :=
  (Band.whenInitialised_of _ hi).trans (if_pos (not_not.1 ((not_congr (Band.paramsMatch_iff ..)).1 h)))

theorem Band.setParams_frequencyHz (type : FilterType) (f bw g : Binary64) {b : Band} (hi : b.initialised = true) :
    (b.setParams type f bw g).frequencyHz = clampFrequency hz20 f := by
  by_cases h : b.ParamsMatch type f bw g
  · rw [Band.setParams_of_match hi h]; rfl
  · rw [Band.setParams_of_not_match hi h]; rfl

/-! ## The band's statements -/

/-- Settles O44: the cells `init` leaves have `valid` 0, so a NOP step does not show on them. -/
theorem bandInitEffect : Obligations.BandInitEffect := by
  refine ⟨fun _ _ _ => rfl, fun s sr f bw g n code type hcode h1 h8 => ?_⟩
  refine ⟨_, stepBand_init s sr f bw g hcode ((channelCountWellFormed_iff n).2 ⟨h1, h8⟩), State.putBand_only _ s, ?_⟩
  have hvalid : ∀ c ∈ (Band.init sr n type f bw g).cells, c.valid = false := fun c hc => by
    rw [Band.init_cells] at hc
    rw [List.eq_of_mem_replicate hc]
    rfl
  rw [State.putBand_band, Band.settle, settleCells_of_not_valid _ hvalid]
  exact Band.init_eq sr n type f bw g

/-- Settles O45: the cells are those of `processCells`, cell by cell PROCESS with the draws of its channel. -/
theorem bandFrame : Obligations.BandFrame := by
  intro s v hi hv hcells
  refine ⟨_, stepBand_processFrame hi hv, rfl, fun he => ?_, fun he => ?_⟩
  · rw [Band.processFrame_disabled s.draws v he]
    exact ⟨rfl, State.putBand_idleOf s.band s⟩
  · rw [Band.processFrame_enabled s.draws v he]
    refine ⟨processCells s.draws s.band.cells v, ?_, State.putBand_idleOf _ s, rfl, fun i c d x hc hx hd => ?_⟩
    · rw [processCells_length, hcells, hv]
    · rw [processCells_getElem? s.draws s.band.cells v i c x hc hx] at hd
      cases hd
      exact exec_process x rfl

/-- Settles O46, operation by operation. -/
theorem bandSetterEffects : Obligations.BandSetterEffects := by
  intro s hi b
  refine ⟨?reset, fun code type hcode => ?setType, fun f => ?setFrequency, fun bw => ?setBandwidth, fun g => ?setGainDb,
    fun e => ?setEnabled⟩
  case reset => exact stepBand_puts rfl (Band.reset_of_initialised hi)
  case setType => exact stepBand_puts (stepBand_setType s hcode) (Band.setType_of_initialised hi type)
  case setFrequency => exact stepBand_puts rfl (Band.setFrequency_of_initialised hi f)
  case setBandwidth => exact stepBand_puts rfl (Band.setBandwidth_of_initialised hi bw)
  case setGainDb => exact stepBand_puts rfl (Band.setGainDb_of_initialised hi g)
  case setEnabled => exact stepBand_puts rfl (Band.setEnabled_of_initialised hi e)

/-- Settles O47: the two conditions are that the parameters match the stored ones, and that they do not. -/
theorem setParamsEffect : Obligations.SetParamsEffect := by
  intro s code type f bw g hi hcode
  refine ⟨_, stepBand_setParams s f bw g hcode, State.putBand_only _ s, fun hmatch => ?_, fun hdiffer => ?_⟩
  · rw [Band.setParams_of_match hi hmatch]
    exact State.putBand_idleOf _ s
  · have hno : ¬s.band.ParamsMatch type f bw g := by
      rintro ⟨htype, hf, hbw, hg⟩
      rcases hdiffer with h | h | h | ⟨hpeq, h⟩
      · exact h htype
      · simp [hf] at h
      · simp [hbw] at h
      · simp [hg hpeq] at h
    rw [Band.setParams_of_not_match hi hno]
    exact State.putBand_idleOf _ s

theorem clampFrequency_hz20_floor (f : Binary64) :
    le64 hz20 (clampFrequency hz20 f) = true ∨ (isNaN64 f = true ∧ clampFrequency hz20 f = f) :=
  clampFrequency_floor hz20 f (by decide +kernel) (by decide +kernel)

theorem clampFrequency_hz0_floor (f : Binary64) :
    le64 hz0 (clampFrequency hz0 f) = true ∨ (isNaN64 f = true ∧ clampFrequency hz0 f = f) :=
  clampFrequency_floor hz0 f (by decide +kernel) (by decide +kernel)

/-- Settles O49: what is stored is the frequency clamped to the operation's floor. -/
theorem frequencyFloors : Obligations.FrequencyFloors := by
  intro s t code sr f bw g n
  refine ⟨fun h => ?init, fun hi h => ?setParams, fun hi hne h => ?setFrequency⟩
  case init =>
    obtain ⟨type, -, -, rfl⟩ := stepBand_init_next h
    exact clampFrequency_hz20_floor f
  case setParams =>
    obtain ⟨type, -, h⟩ := withFilterType_next h
    cases h
    rw [State.putBand_band, Band.settle_frequencyHz, Band.setParams_frequencyHz type f bw g hi]
    exact clampFrequency_hz20_floor f
  case setFrequency =>
    cases h
    rw [State.putBand_band, Band.settle_frequencyHz, Band.setFrequency_of_initialised hi, if_neg (by simp [hne])]
    exact clampFrequency_hz0_floor f

/-- Before `init` every setter, `reset` and `setEnabled` puts the band back as it was (R101). -/
theorem stepBand_of_not_initialised {s : State} {op : BandOp} (hi : s.band.initialised = false)
    (hw : op.wellFormed = true) (hinit : ∀ sr n code f bw g, op ≠ .init sr n code f bw g)
    (hframe : ∀ v, op ≠ .processFrame v) : stepBand op s = .next (s.putBand s.band) := by
  have ignored (f : Band → Band) :
      (.next (s.putBand (s.band.whenInitialised f)) : Host.Outcome State Fault Refusal) = .next (s.putBand s.band) := by
    rw [Band.whenInitialised_of_not f hi]
  cases op with
  | init sr n code f bw g => exact absurd rfl (hinit sr n code f bw g)
  | processFrame v => exact absurd rfl (hframe v)
  | setParams code f bw g =>
    obtain ⟨type, hcode⟩ := exists_ofCode hw
    exact (stepBand_setParams s f bw g hcode).trans (ignored _)
  | setType code =>
    obtain ⟨type, hcode⟩ := exists_ofCode hw
    exact (stepBand_setType s hcode).trans (ignored _)
  | reset | setFrequency | setBandwidth | setGainDb | setEnabled => exact ignored _

/-- Settles O50: the band that is put is the one that was there. -/
theorem uninitialisedBandIgnores : Obligations.UninitialisedBandIgnores := fun _ _ hi hw hinit hframe =>
  stepBand_puts (stepBand_of_not_initialised hi hw hinit hframe) rfl

/-! ## Which cascade an operation puts -/

theorem stepEqualizer_init (s : State) (sr : Binary64) {m n : Nat} (hm : bandCountWellFormed m = true)
    (hn : channelCountWellFormed n = true) :
    stepEqualizer (.init sr m n) s = .next (s.putEqualizer (Equalizer.init sr m n)) := by
  simp only [stepEqualizer, hm, hn, Bool.not_true, Bool.false_eq_true, if_false]

theorem stepEqualizer_processFrame {s : State} {v : List Word} (hi : s.equalizer.initialised = true)
    (hv : v.length = s.equalizer.channelCount) :
    stepEqualizer (.processFrame v) s =
      .next { s.putEqualizer { s.equalizer with bands := (processBands s.draws s.equalizer.bands v).1 } with
              outSamples := (processBands s.draws s.equalizer.bands v).2 } := by
  simp only [stepEqualizer, hi, hv, Bool.not_true, Bool.false_eq_true, if_false, ne_eq, not_true_eq_false]

/-! ## The cascade's statements -/

theorem clampFrequency_hz20_hz500 : clampFrequency hz20 hz500 = hz500 := by decide +kernel

/-- Settles O51: the cells of the fresh bands have `valid` 0, so a NOP step does not show on them. -/
theorem equalizerInitEffect : Obligations.EqualizerInitEffect := by
  intro s sr m n hm h1 h8
  have step := stepEqualizer_init s sr ((bandCountWellFormed_iff m).2 hm) ((channelCountWellFormed_iff n).2 ⟨h1, h8⟩)
  obtain ⟨ha1, ha2, ha0⟩ := machineEngineUnityAtZeroGain hz500 sr oneOctave zeroDb (by decide +kernel)
  refine ⟨_, step, State.putEqualizer_only _ s, ha1, ha2, ha0, ?_⟩
  have hvalid : ∀ b ∈ (Equalizer.init sr m n).bands, ∀ c ∈ b.cells, c.valid = false := fun b hb c hc => by
    rw [List.eq_of_mem_replicate hb, Band.init_cells] at hc
    rw [List.eq_of_mem_replicate hc]
    rfl
  rw [State.putEqualizer_equalizer, settleBands_of_not_valid _ hvalid, Equalizer.init, Band.init_eq,
    clampFrequency_hz20_hz500]
  rfl

/-- Settles O52: `onBand` acts in range on an initialised cascade, and nowhere else. -/
theorem equalizerSettersDelegate : Obligations.EqualizerSettersDelegate := by
  intro s k code type f bw g en hcode op h hop
  have step : stepEqualizer op s = .next (s.putEqualizer (s.equalizer.onBand k h)) := by
    rcases hop with ⟨rfl, rfl⟩ | ⟨rfl, rfl⟩ | ⟨rfl, rfl⟩ | ⟨rfl, rfl⟩ | ⟨rfl, rfl⟩
    case inr.inl => exact withFilterType_some _ hcode
    all_goals rfl
  refine ⟨_, step, State.putEqualizer_only _ s, fun hi h0 hk => ?_, fun hout => ?_⟩
  · rw [Equalizer.onBand_of h ⟨hi, h0, hk⟩]
    exact State.putEqualizer_idleOf _ s
  · have hno : ¬(s.equalizer.initialised ∧ 0 ≤ k ∧ k < (s.equalizer.bandCount : Int)) := by
      rintro ⟨hi, h0, hk⟩
      rcases hout with hu | hneg | hbig
      · simp [hi] at hu
      · omega
      · omega
    rw [Equalizer.onBand_of_not h hno]
    exact State.putEqualizer_idleOf _ s

/-! ## A frame through the cascade (R106) -/

/-- What goes into each band of a cascade, and then what comes out of the last. -/
def bandFrames (n : Nat) : List Band → List Word → List (List Word)
  | [], v => [v]
  | b :: bs, v => v :: bandFrames (n + drawsPerProcess * b.cells.length) bs (b.processFrame n v).2

@[simp] theorem bandFrames_length (n : Nat) (bs : List Band) (v : List Word) :
    (bandFrames n bs v).length = bs.length + 1 := by
  induction bs generalizing n v with
  | nil => rfl
  | cons b bs ih => simp [bandFrames, ih]

@[simp] theorem bandFrames_getElem?_zero (n : Nat) (bs : List Band) (v : List Word) :
    (bandFrames n bs v)[0]? = some v := by
  cases bs <;> rfl

theorem bandFrames_getElem?_length (n : Nat) (bs : List Band) (v : List Word) :
    (bandFrames n bs v)[bs.length]? = some (processBands n bs v).2 := by
  induction bs generalizing n v with
  | nil => rfl
  | cons b bs ih => exact ih _ _

/-- Band `i` takes frame `i` and gives frame `i + 1`, its draws after those of the bands before it. -/
theorem processBands_getElem? {n : Nat} {bs : List Band} {v x : List Word} {i : Nat} {b : Band} (hb : bs[i]? = some b)
    (hx : (bandFrames n bs v)[i]? = some x) :
    let r := b.processFrame (n + drawsPerProcess * ((bs.take i).map fun d => d.cells.length).sum) x
    (processBands n bs v).1[i]? = some r.1 ∧ (bandFrames n bs v)[i + 1]? = some r.2 := by
  induction bs generalizing n v i with
  | nil => simp at hb
  | cons a bs ih =>
    cases i with
    | zero =>
      cases hb
      cases hx
      exact ⟨rfl, bandFrames_getElem?_zero ..⟩
    | succ i =>
      have hrest := ih hb hx
      rw [Nat.add_assoc, ← Nat.mul_add] at hrest
      exact hrest

/-- Settles O53 with the chain `bandFrames`. -/
theorem cascadeFrame : Obligations.CascadeFrame := by
  intro s v hi hv
  exact ⟨_, bandFrames s.draws s.equalizer.bands v, (processBands s.draws s.equalizer.bands v).1,
    stepEqualizer_processFrame hi hv, rfl, bandFrames_length .., bandFrames_getElem?_zero ..,
    bandFrames_getElem?_length .., State.putEqualizer_idleOf _ s, processBands_length ..,
    fun _ _ _ => processBands_getElem?⟩

/-- Settles O54: no disabled band changes its frame or itself. -/
theorem disabledCascadeIsIdentity : Obligations.DisabledCascadeIsIdentity := by
  intro s v hi hv hdisabled
  refine ⟨_, stepEqualizer_processFrame hi hv, rfl, ?_⟩
  rw [processBands_of_disabled s.draws v hdisabled]
  exact ⟨rfl, State.putEqualizer_idleOf s.equalizer s⟩

/-! ## Refusals (R108) -/

/-- Settles O55: a type code below 6 exists, so the counts decide, the channel count first. -/
theorem refusedOperations : Obligations.RefusedOperations := by
  intro s sr f bw g m n code v
  refine ⟨fun hcode hn => ?bandInit, fun hn => ?channels, fun h1 h8 hm => ?bands, fun hi => ?frame⟩
  case bandInit =>
    obtain ⟨type, hcode⟩ := exists_ofCode (code := code) (decide_eq_true hcode)
    refine (withFilterType_some _ hcode).trans (if_neg ?_)
    simp [(channelCountWellFormed_eq_false n).2 hn]
  case channels => simp [stepEqualizer, (channelCountWellFormed_eq_false n).2 hn]
  case bands =>
    have hm0 : bandCountWellFormed m = false := decide_eq_false (by omega)
    simp [stepEqualizer, (channelCountWellFormed_iff n).2 ⟨h1, h8⟩, hm0]
  case frame => simp [stepEqualizer, hi]

end Sys2Proof.Machine
end

section
/-! SUPPORT. The exceptions family (60_exceptions.md R121): an event of one of the three systems leaves the other two
unchanged, which the lemmas that say what such an event can do give (`exec_next`, `stepBand_next`, `stepEqualizer_next`). -/

namespace Sys2Proof.Machine

theorem stepPort_frame {p : Port} {s t : State} (h : stepPort p s = .next t) :
    t = { s with cell := t.cell, initialised := t.initialised, draws := t.draws } := by
  cases hp : p.init with
  | true =>
    cases (stepPort_of_init s hp).symm.trans h
    rfl
  | false =>
    obtain ⟨-, hcases⟩ := exec_next ((stepPort_of_not_init s hp).symm.trans h)
    obtain ⟨-, rfl⟩ | ⟨x, -, rfl⟩ | ⟨a0, a1, a2, b1, b2, -, rfl⟩ | ⟨-, rfl⟩ := hcases <;> rfl

theorem stepBand_frame {op : BandOp} {s t : State} (h : stepBand op s = .next t) :
    t = { s with band := t.band, outSamples := t.outSamples, draws := t.draws } := by
  obtain ⟨b, out, rfl, -⟩ := stepBand_next h
  rfl

theorem stepEqualizer_frame {op : EqualizerOp} {s t : State} (h : stepEqualizer op s = .next t) :
    t = { s with equalizer := t.equalizer, outSamples := t.outSamples, draws := t.draws } := by
  obtain ⟨e, out, rfl, -⟩ := stepEqualizer_next h
  rfl

/-- Settles O37: one frame lemma for each kind of event. -/
theorem systemsDoNotInterfere : Obligations.SystemsDoNotInterfere :=
  fun _ _ => ⟨fun _ => stepPort_frame, fun _ => stepBand_frame, fun _ => stepEqualizer_frame⟩

end Sys2Proof.Machine
end

section
/-! SUPPORT. The reset and hazards family (70_reset_and_hazards.md R125, R127): what sets RESET apart from INIT, and what the
identity coefficients make of each class of samples. -/

namespace Sys2Proof.Machine

/-! ## RESET against INIT (R125) -/

/-- Settles O19: RESET answers only after an INIT, and its cell is the fresh one but for the coefficients. -/
theorem initAndResetDifferInCoefficients : Obligations.InitAndResetDifferInCoefficients := by
  intro s t h
  obtain ⟨hi, -⟩ := exec_next h
  cases (exec_reset hi).symm.trans h
  refine ⟨?_, rfl, rfl⟩
  rw [State.initCell, ← hi]
  rfl

/-! ## Classes of patterns (R9) -/

theorem not_subnormal_of_isInf {v : Word} (h : isInf v = true) : isSubnormal v = false := by
  rw [isInf_eq, decide_eq_true_iff] at h
  rw [isSubnormal_eq, decide_eq_false_iff_not]
  omega

theorem not_zero_of_not_finite {v : Word} (h : isFinite v = false) : isZero v = false :=
  Bool.eq_false_iff.2 fun hz => by simp [isFinite_of_isZero hz] at h

theorem isFinite_of_isNormal {v : Word} (h : isNormal v = true) : isFinite v = true := by
  rw [isNormal_eq, decide_eq_true_iff] at h
  rw [isFinite_eq, decide_eq_true_iff]
  omega

theorem isFinite_of_isSubnormal {v : Word} (h : isSubnormal v = true) : isFinite v = true := by
  rw [isSubnormal_eq, decide_eq_true_iff] at h
  rw [isFinite_eq, decide_eq_true_iff]
  omega

theorem not_zero_of_isSubnormal {v : Word} (h : isSubnormal v = true) : isZero v = false := by
  rw [isSubnormal_eq, decide_eq_true_iff] at h
  rw [isZero_eq, decide_eq_false_iff_not]
  omega

/-! ## NaN products (R57, R58) -/

/-- A NaN in either of the first two products passes through every later sum. -/
theorem Cell.isNaN_process_y1_of_product {n : Nat} {x : Word} {c : Cell}
    (h : isNaN (fmul (drawnNaN n) c.a0 x) = true ∨ isNaN (fmul (drawnNaN (n + 1)) c.a1 c.x1) = true) :
    isNaN (c.process n x).y1 = true :=
  isNaN_clamp (isNaN_fsub _ (.inl (isNaN_fsub _ (.inl (isNaN_fadd _ (.inl (isNaN_fadd _ h)))))))

/-- A zero times an infinity is an invalid operation. -/
theorem isNaN_fmul_zero_left (n : Nat) {p q : Word} (hp : isZero p = true) (hq : isFinite q = false) :
    isNaN (fmul (drawnNaN n) p q) = true := by
  rcases (isFinite_eq_false q).1 hq with hinf | hnan
  · rw [fmul_finite_inf _ (isFinite_of_isZero hp) hinf, if_pos hp]
    exact isNaN_drawnNaN n
  · exact isNaN_fmul n (.inr hnan)

/-! ## Zeros (R57) -/

theorem fmul_posZero (nan : Word) : fmul nan 0#32 0#32 = 0#32 :=
  (fmul_finite nan rfl rfl).trans (by decide +kernel)

/-- A zero of either sign plus `+0` is `+0`. -/
theorem fadd_posZero_right (nan : Word) {p : Word} (hp : isZero p = true) : fadd nan p 0#32 = 0#32 := by
  have hsum : quanta p + quanta 0#32 = 0 := (add_zero _).trans ((quanta_eq_zero p).2 hp)
  exact (fadd_of_sum_zero nan (isFinite_of_isZero hp) rfl hsum).trans (if_neg fun h => absurd h.2 (by decide))

theorem fsub_posZero (nan : Word) : fsub nan 0#32 0#32 = 0#32 :=
  (fadd_of_sum_zero nan rfl rfl rfl).trans (if_neg (by decide))

/-! ## Identity coefficients (R127, R64 item 10) -/

/-- A cell with the coefficients `1, 0, 0, 0, 0`. -/
structure Cell.IsIdentity (c : Cell) : Prop where
  a0 : c.a0 = one
  a1 : c.a1 = 0#32
  a2 : c.a2 = 0#32
  b1 : c.b1 = 0#32
  b2 : c.b2 = 0#32

theorem Cell.isIdentity_of_coeffs {c : Cell} (h : c.coeffs = ⟨0x3F800000#32, 0#32, 0#32, 0#32, 0#32⟩) : c.IsIdentity := by
  obtain ⟨ha0, ha1, ha2, hb1, hb2⟩ := Coeffs.mk.inj h
  exact ⟨ha0, ha1, ha2, hb1, hb2⟩

theorem Cell.IsIdentity.process {c : Cell} (h : c.IsIdentity) (n : Nat) (x : Word) : (c.process n x).IsIdentity :=
  ⟨h.a0, h.a1, h.a2, h.b1, h.b2⟩

theorem Cell.IsIdentity.delayedProductsZero {c : Cell} (h : c.IsIdentity) (n : Nat) (hx1 : isFinite c.x1 = true)
    (hx2 : isFinite c.x2 = true) (hy1 : isFinite c.y1 = true) (hy2 : isFinite c.y2 = true) :
    c.DelayedProductsZero n where
  a1x1 := fmul_zero_left _ (by rw [h.a1]; rfl) hx1
  a2x2 := fmul_zero_left _ (by rw [h.a2]; rfl) hx2
  b1y1 := fmul_zero_left _ (by rw [h.b1]; rfl) hy1
  b2y2 := fmul_zero_left _ (by rw [h.b2]; rfl) hy2

/-- A sample that is neither a zero nor a NaN reaches the clamp as it is: `1.0` multiplies exactly. -/
theorem Cell.IsIdentity.process_y1 {n : Nat} {x : Word} {c : Cell} (h : c.IsIdentity) (hd : c.DelayedProductsZero n)
    (hz : isZero x = false) (hn : isNaN x = false) : (c.process n x).y1 = clamp x := by
  have hmul : fmul (drawnNaN n) c.a0 x = x := by
    rw [h.a0]
    exact fmul_one_left _ hn
  rw [Cell.process_y1, recurrence_eq_product hd (by rwa [hmul]) (by rwa [hmul]), hmul]

/-- The first sum, `-0 + +0`, is `+0`, and the later ones keep it. -/
theorem Cell.IsIdentity.process_y1_negZero {c : Cell} (h : c.IsIdentity) (n : Nat) (hx1 : c.x1 = 0#32) (hx2 : c.x2 = 0#32)
    (hy1 : c.y1 = 0#32) (hy2 : c.y2 = 0#32) : (c.process n 0x80000000#32).y1 = 0#32 := by
  rw [Cell.process_y1, recurrence, h.a0, h.a1, h.a2, h.b1, h.b2, hx1, hx2, hy1, hy2, fmul_one_left _ rfl]
  simp only [fmul_posZero, fsub_posZero, fadd_posZero_right _ (show isZero 0x80000000#32 = true from rfl),
    fadd_posZero_right _ (show isZero 0#32 = true from rfl)]
  rfl

/-- The non-finite sample stands in `x1` then, and `+0` times it is a NaN. -/
theorem Cell.IsIdentity.isNaN_process_process_y1 {x : Word} {c : Cell} (h : c.IsIdentity) (hx : isFinite x = false)
    (n m : Nat) (z : Word) : isNaN ((c.process n x).process m z).y1 = true :=
  Cell.isNaN_process_y1_of_product (.inr (isNaN_fmul_zero_left _ (by rw [(h.process n x).a1]; rfl) hx))

/-- Settles O34, class by class of the sample: what is no zero and no NaN reaches the clamp as it is. -/
theorem identityCellPassesNormalSamples : Obligations.IdentityCellPassesNormalSamples := by
  intro s x hi hcoeffs hx1 hx2 hy1 hy2
  have hid := Cell.isIdentity_of_coeffs hcoeffs
  have hpass := hid.process_y1 (x := x) (hid.delayedProductsZero s.draws hx1 hx2 hy1 hy2)
  refine ⟨_, exec_process x hi, fun h => ?normal, fun h => ?subnormal, fun h => ?negZero, fun h => ?inf, fun h => ?nan,
    fun h => ⟨?nonFinite, fun z => ⟨_, exec_process z hi, hid.isNaN_process_process_y1 h _ _ z⟩⟩⟩
  case normal =>
    exact (hpass (not_zero_of_isNormal h) (not_nan_of_isFinite (isFinite_of_isNormal h))).trans
      (clamp_of_not_subnormal (not_subnormal_of_isNormal h))
  case subnormal =>
    exact (hpass (not_zero_of_isSubnormal h) (not_nan_of_isFinite (isFinite_of_isSubnormal h))).trans
      (clamp_of_subnormal h)
  case negZero =>
    subst h
    exact hid.process_y1_negZero s.draws
  case inf =>
    exact (hpass (not_zero_of_not_finite ((isFinite_eq_false x).2 (.inl h))) (not_nan_of_isInf h)).trans
      (clamp_of_not_subnormal (not_subnormal_of_isInf h))
  case nan => exact Cell.isNaN_process_y1_of_product (.inl (isNaN_fmul _ (.inr h)))
  case nonFinite =>
    exact s.cell.process_y1_not_finite s.draws fun hfin => by simp [hfin.1] at h

end Sys2Proof.Machine
end
